-- ==== Sys2Proof/Word.lean ====
section
/-! DEFINITION. The machine word: spec/00_scope.md rules R5 and R6. -/

namespace Sys2Proof

/-- A word: W = 32 bits (R5), the unit "used uniformly for instructions, data, and addresses".
The signed value R6 speaks of is `BitVec.toInt`; the bit pattern is the bit vector itself. -/
abbrev Word := BitVec 32

end Sys2Proof
end

