-- ==== Sys2Proof/Syntax.lean ====
section
/-! DEFINITION. The decoded instructions: spec/30_encoding.md rules R75 and R82. -/

namespace Sys2Proof

/-- A register number, 0 to 15 (R73): all 16 name a register. -/
abbrev RegNum := Fin 16

/-- A condition mask or a value of the flag register: a 4-bit pattern (10_state.md R29, R30).
Bit 0 is M, bit 1 is Z, bit 2 is P, bit 3 is V. -/
abbrev CondMask := BitVec 4

/-- The opcode names of rule R75. -/
inductive Opcode where
  | halt | load | store | add | sub | mul | div
  deriving DecidableEq, Repr

/-- A decoded instruction (R82), one constructor for each row of the opcode table, in the table's
order. `cond` is the condition mask, `rT` the target, `rS1` and `rS2` the sources, `off` the signed
offset, an integer (its range -512..511 is `Instr.WellFormed`'s). -/
inductive Instr where
  /-- 44_control.md R190 -/
  | halt (cond : CondMask) (rT rS1 rS2 : RegNum) (off : Int)
  /-- 43_memory_ops.md R180 -/
  | load (cond : CondMask) (rT rS1 rS2 : RegNum) (off : Int)
  /-- 43_memory_ops.md R181 -/
  | store (cond : CondMask) (rT rS1 rS2 : RegNum) (off : Int)
  /-- 42_arithmetic.md R160 -/
  | add (cond : CondMask) (rT rS1 rS2 : RegNum) (off : Int)
  /-- 42_arithmetic.md R161 -/
  | sub (cond : CondMask) (rT rS1 rS2 : RegNum) (off : Int)
  /-- 42_arithmetic.md R162 -/
  | mul (cond : CondMask) (rT rS1 rS2 : RegNum) (off : Int)
  /-- 42_arithmetic.md R163 -/
  | div (cond : CondMask) (rT rS1 rS2 : RegNum) (off : Int)
  deriving DecidableEq, Repr

/-- The field `op` of rule R82. -/
def Instr.op : Instr → Opcode
  | .halt _ _ _ _ _ => .halt
  | .load _ _ _ _ _ => .load
  | .store _ _ _ _ _ => .store
  | .add _ _ _ _ _ => .add
  | .sub _ _ _ _ _ => .sub
  | .mul _ _ _ _ _ => .mul
  | .div _ _ _ _ _ => .div

/-- The field `cond` of rule R82. -/
def Instr.cond : Instr → CondMask
  | .halt c _ _ _ _ | .load c _ _ _ _ | .store c _ _ _ _ | .add c _ _ _ _
  | .sub c _ _ _ _ | .mul c _ _ _ _ | .div c _ _ _ _ => c

/-- The field `rT` of rule R82. -/
def Instr.rT : Instr → RegNum
  | .halt _ t _ _ _ | .load _ t _ _ _ | .store _ t _ _ _ | .add _ t _ _ _
  | .sub _ t _ _ _ | .mul _ t _ _ _ | .div _ t _ _ _ => t

/-- The field `rS1` of rule R82. -/
def Instr.rS1 : Instr → RegNum
  | .halt _ _ a _ _ | .load _ _ a _ _ | .store _ _ a _ _ | .add _ _ a _ _
  | .sub _ _ a _ _ | .mul _ _ a _ _ | .div _ _ a _ _ => a

/-- The field `rS2` of rule R82. -/
def Instr.rS2 : Instr → RegNum
  | .halt _ _ _ b _ | .load _ _ _ b _ | .store _ _ _ b _ | .add _ _ _ b _
  | .sub _ _ _ b _ | .mul _ _ _ b _ | .div _ _ _ b _ => b

/-- The field `off` of rule R82. -/
def Instr.off : Instr → Int
  | .halt _ _ _ _ o | .load _ _ _ _ o | .store _ _ _ _ o | .add _ _ _ _ o
  | .sub _ _ _ _ o | .mul _ _ _ _ o | .div _ _ _ _ o => o

/-- The instruction with the six fields of rule R82. -/
def Instr.make (op : Opcode) (cond : CondMask) (rT rS1 rS2 : RegNum) (off : Int) : Instr :=
  match op with
  | .halt => .halt cond rT rS1 rS2 off
  | .load => .load cond rT rS1 rS2 off
  | .store => .store cond rT rS1 rS2 off
  | .add => .add cond rT rS1 rS2 off
  | .sub => .sub cond rT rS1 rS2 off
  | .mul => .mul cond rT rS1 rS2 off
  | .div => .div cond rT rS1 rS2 off

end Sys2Proof
end

