-- ==== Sys2Proof/WellFormed.lean ====
section
/-! DEFINITION. Which decoded instructions have an encoding: spec/30_encoding.md rules R72 and R82.
The register numbers and the mask hold their ranges in their types; the offset is an integer and is
checked here. -/

namespace Sys2Proof

/-- An offset the 10-bit field can hold: -512 to 511 (R72). -/
abbrev offsetFits (off : Int) : Prop := -512 ≤ off ∧ off ≤ 511

/-- Every field of the instruction is in the range rule R82 gives it. -/
abbrev Instr.WellFormed (i : Instr) : Prop := offsetFits i.off

end Sys2Proof
end

