-- ==== Sys2Proof/Decode.lean ====
section
/-! DEFINITION. The decoder and the encoder: spec/30_encoding.md rules R71, R72, R75, R76 and R79. -/

namespace Sys2Proof

/-- Why a word is illegal (R76). -/
inductive DecodeError where
  /-- Bit 31, which must be 0, is 1. -/
  | reservedBit
  /-- The opcode number, 7 to 31, names no instruction. -/
  | unknownOpcode (number : Nat)
  deriving DecidableEq, Repr

/-- The opcode numbers of rule R75. -/
def opcodeNumber : Opcode → BitVec 5
  | .halt => 0
  | .load => 1
  | .store => 2
  | .add => 3
  | .sub => 4
  | .mul => 5
  | .div => 6

/-- The opcode of a number (R75), if it has one. -/
def opcodeOf (n : BitVec 5) : Option Opcode :=
  match n.toNat with
  | 0 => some .halt
  | 1 => some .load
  | 2 => some .store
  | 3 => some .add
  | 4 => some .sub
  | 5 => some .mul
  | 6 => some .div
  | _ => none

/-- The unsigned field of `width` bits whose lowest bit is `lo` (00_scope.md R7). -/
def fieldAt (word : Word) (lo width : Nat) : BitVec width := word.extractLsb' lo width

/-- The register number in the four bits from `lo` up (R73). -/
def regAt (word : Word) (lo : Nat) : RegNum := ⟨(fieldAt word lo 4).toNat, (fieldAt word lo 4).isLt⟩

/-- `sext_10` of 00_scope.md rule R8. -/
def sext10 (b : BitVec 10) : Int := if b.toNat < 512 then b.toNat else (b.toNat : Int) - 1024

/-- The decoder of rule R71: the instruction of a word, or why the word is illegal (R76). -/
def decode (word : Word) : Except DecodeError Instr :=
  if fieldAt word 31 1 = 1 then .error .reservedBit
  else match opcodeOf (fieldAt word 26 5) with
    | none => .error (.unknownOpcode (fieldAt word 26 5).toNat)
    | some op =>
      .ok (.make op (fieldAt word 22 4) (regAt word 18) (regAt word 14) (regAt word 10)
        (sext10 (fieldAt word 0 10)))

/-- The encoder of rule R79: the fields at the bits of rule R71. Bit 31 is zero. -/
def encode (i : Instr) : Word :=
  BitVec.ofNat 32
    ((opcodeNumber i.op).toNat <<< 26 ||| i.cond.toNat <<< 22 ||| i.rT.val <<< 18
      ||| i.rS1.val <<< 14 ||| i.rS2.val <<< 10 ||| (i.off % 1024).toNat)

/-- What the decoder reads from the opcode table's numbering of an instruction's bits. The table
gives every row 32 bits, one word, bit 0 the least significant: the word's own bits (R7, R70). A
shorter row's missing bits are 0; a longer one is no instruction of this machine. -/
def decodeTableWord (nbits w : Nat) : Option Instr :=
  if nbits ≤ 32 then (decode (BitVec.ofNat 32 (w % 2 ^ nbits))).toOption else none

end Sys2Proof
end

