-- ==== Sys2Proof/Config.lean ====
section
/-! DEFINITION. What one machine of this kind fixes: the parameters of spec/00_scope.md rule R4.
The spec leaves no result of an instruction open, so no free value stands here. -/

namespace Sys2Proof

/-- The largest `MEM_SIZE` rule R4 allows; the smallest is 1. -/
def Config.maxMemSize : Nat := 2147483648

/-- `MEM_SIZE` of the machine `State.reset` describes. R4 leaves the number to the model
(1 ≤ MEM_SIZE ≤ 2^31); a state with any other size is a state of the model too, since the size is
data of the memory. DESIGN CHOICE, unsafe: notes/assumptions/1.md. -/
def Config.resetMemSize : Nat := 2147483648

/-- What a word of memory that is not listed reads as: the `INIT_MEM` value (R4, R60) of every
address nothing was placed at. DESIGN CHOICE, unsafe: notes/assumptions/2.md. -/
def Config.fillWord : Word := 0

end Sys2Proof
end

