-- ==== Sys2Proof/Machine/State.lean ====
section
/-! DEFINITION. The state of the machine: spec/10_state.md, the memory of spec/20_memory.md, the
run states and fault kinds of spec/60_exceptions.md, and the observer's record. -/

namespace Sys2Proof.Machine

/-- One word of memory at a word address. The word is the smallest addressable unit: "no byte
addressing" (20_memory.md R50, R55). DESIGN CHOICE, safe: notes/assumptions/3.md. -/
abbrev MemCell := Nat × Word

/-- The memory array at the core's port (20_memory.md R50 to R53): `size` is `MEM_SIZE`, `cells`
lists the words that differ from `Config.fillWord`, addresses strictly rising. -/
structure Memory where
  size : Nat
  cells : List MemCell
  deriving DecidableEq, Repr

/-- The fault kinds of 60_exceptions.md R201. -/
inductive FaultKind where
  | machineFaultV
  | fetchOutOfRange
  | loadOutOfRange
  | storeOutOfRange
  | illegalInstruction
  deriving DecidableEq, Repr

/-- What FAULTED records: the fault kind and its information, an address or a word
(10_state.md R34, 60_exceptions.md R201). -/
structure FaultReport where
  kind : FaultKind
  info : Word
  deriving DecidableEq, Repr

/-- The run states of 10_state.md R34 and 41_cpu_step.md R130. -/
inductive RunState where
  | idle
  | running
  | halted
  | faulted (report : FaultReport)
  deriving DecidableEq, Repr

/-- One observer event (41_cpu_step.md R136): the address, the raw word, the decoded instruction. -/
structure StepEvent where
  pc : Word
  word : Word
  instr : Instr
  deriving DecidableEq, Repr

/-- The state of the machine (10_state.md; the memory of 20_memory.md; the trace of
60_exceptions.md R213). -/
structure State where
  /-- The 16 cells of R20. Cell 15 is the program counter (R22); cell 0 is never read or written
  (R21), see `State.readReg` and `State.writeReg`. -/
  regs : Vector Word 16
  /-- The condition-flag register (R28), a 4-bit pattern (R29). -/
  flag : CondMask
  /-- R32 -/
  halted : Bool
  /-- The step counter, an unbounded natural number (R33). -/
  steps : Nat
  /-- R34 -/
  runState : RunState
  /-- The memory, outside the core (20_memory.md). -/
  mem : Memory
  /-- The events sent on the observer port so far, newest first: "A model records the sequence of
  events" (60_exceptions.md R213). DESIGN CHOICE, safe: notes/assumptions/7.md. -/
  trace : List StepEvent
  deriving DecidableEq, Repr

/-- Why a step stops with a fault outcome (00_scope.md R8, 60_exceptions.md R201 codes 2 to 5).
Each carries the information the host receives and `left`, the state R203 or R204 says is left,
its run state FAULTED. DESIGN CHOICE, safe: notes/assumptions/4.md. -/
inductive Fault where
  /-- Raised by `step` at the fetch, when pc is not a valid address (41_cpu_step.md R134); `left` is
  the state before the step but for the run state (R203). Safe. -/
  | fetchOutOfRange (address : Word) (left : State)
  /-- Raised by `step` at the decode of an illegal word (30_encoding.md R76); `left` is the state
  before the step but for the run state (R204). Safe: a machine that runs such a word runs programs
  this model stops (92_eei_decisions.md D10). -/
  | illegalInstruction (word : Word) (left : State)
  /-- Raised by LOAD at its commit, when the address is not valid (43_memory_ops.md R180); `left`
  is the state after parts 1 to 6 of the step (R203). Safe. -/
  | loadOutOfRange (address : Word) (left : State)
  /-- Raised by STORE at its commit, when the address is not valid (43_memory_ops.md R181); `left`
  is the state after parts 1 to 6 of the step (R203). Safe. -/
  | storeOutOfRange (address : Word) (left : State)
  deriving DecidableEq, Repr

/-- Why a step is refused. -/
inductive Refusal where
  /-- Raised by an arm of `exec` whose instruction has no meaning yet; no arm of this model does.
  Safe. -/
  | notModelled (mnemonic : String)
  /-- Raised by `step` outside a run: "No step is taken in run state IDLE, HALTED or FAULTED"
  (41_cpu_step.md R150). Safe. -/
  | notRunning (state : RunState)
  deriving DecidableEq, Repr

/-- What a step or a meaning answers. -/
abbrev Answer := Host.Outcome State Fault Refusal

/-- The machine at construction (10_state.md R36, 70_reset_and_hazards.md R230, R232). The memory
is not core state: its size and contents here are notes/assumptions/1.md and 2.md. -/
def State.reset : State where
  regs := Vector.replicate 16 0
  flag := 15
  halted := false
  steps := 0
  runState := .idle
  mem := { size := Config.resetMemSize, cells := [] }
  trace := []

end Sys2Proof.Machine
end

