-- ==== Sys2Proof/Machine/Flags.lean ====
section
/-! DEFINITION. The condition flags: their values (spec/10_state.md R29), their derivation from an
exact result (spec/40_alu.md R102) and the enable test (spec/41_cpu_step.md R137). -/

namespace Sys2Proof.Machine

/-- The flag an ALU operation produces: "always exactly one of the primitive outcomes"
(10_state.md R28). -/
inductive AluFlag where
  /-- M: the result is negative. -/
  | minus
  /-- Z: the result is zero. -/
  | zero
  /-- P: the result is positive. -/
  | positive
  /-- V: overflow or divide by zero. -/
  | overflow
  deriving DecidableEq, Repr

/-- The mask that admits no flag (R29). -/
def maskNever : CondMask := 0

/-- The mask that admits every flag (R29); also the flag register's value at construction. -/
def maskAlways : CondMask := 15

/-- The 4-bit pattern of a primitive flag (R29). -/
def AluFlag.bits : AluFlag → CondMask
  | .minus => 1
  | .zero => 2
  | .positive => 4
  | .overflow => 8

/-- `fits_W` of 00_scope.md R8, W = 32. -/
abbrev fitsW (v : Int) : Prop := -2147483648 ≤ v ∧ v ≤ 2147483647

/-- `wrap_W` of 00_scope.md R8: the word congruent to `v` modulo 2^32. -/
def wrapW (v : Int) : Word := BitVec.ofInt 32 v

/-- The flag of an exact result (40_alu.md R102). V takes precedence. -/
def flagOf (raw : Int) : AluFlag :=
  if ¬ fitsW raw then .overflow
  else if raw = 0 then .zero
  else if raw < 0 then .minus
  else .positive

/-- `derive` of 40_alu.md R102: the wrapped result and its flag. -/
def derive (raw : Int) : Word × AluFlag := (wrapW raw, flagOf raw)

/-- The enable test (41_cpu_step.md R137). -/
def enabled (flag cond : CondMask) : Bool :=
  if cond = maskAlways then true
  else if cond = maskNever then false
  else flag &&& cond ≠ 0

end Sys2Proof.Machine
end

