-- ==== Sys2Proof/Machine/Alu.lean ====
section
/-! DEFINITION. The ALU: spec/40_alu.md. A pure function of the opcode and two operands (R100); the
second operand is an exact integer, wider than a word (R101). -/

namespace Sys2Proof.Machine

/-- `tdiv` of 00_scope.md R8: the quotient rounded toward zero. -/
def tdivide (a b : Int) : Int := Int.tdiv a b

/-- R104 -/
def aluAdd (in1 : Word) (in2 : Int) : Word × AluFlag := derive (in1.toInt + in2)

/-- R105 -/
def aluSub (in1 : Word) (in2 : Int) : Word × AluFlag := derive (in1.toInt - in2)

/-- R106 -/
def aluMul (in1 : Word) (in2 : Int) : Word × AluFlag := derive (in1.toInt * in2)

/-- R107. A division by zero gives (0, V); that 0 is never committed: notes/assumptions/10.md. -/
def aluDiv (in1 : Word) (in2 : Int) : Word × AluFlag :=
  if in2 = 0 then (0, .overflow) else derive (tdivide in1.toInt in2)

/-- R108: the address of a LOAD, with the flag of its sum. -/
def aluLoad (in1 : Word) (in2 : Int) : Word × AluFlag := derive (in1.toInt + in2)

/-- R109: the address of a STORE, with the flag of its sum. -/
def aluStore (in1 : Word) (in2 : Int) : Word × AluFlag := derive (in1.toInt + in2)

/-- R110: both operands ignored. -/
def aluHalt (_in1 : Word) (_in2 : Int) : Word × AluFlag := (0, .zero)

/-- `exec(op, in1, in2)` of R100: total over the seven opcodes, so R103's other opcodes cannot
be given to it. -/
def alu (op : Opcode) (in1 : Word) (in2 : Int) : Word × AluFlag :=
  match op with
  | .halt => aluHalt in1 in2
  | .load => aluLoad in1 in2
  | .store => aluStore in1 in2
  | .add => aluAdd in1 in2
  | .sub => aluSub in1 in2
  | .mul => aluMul in1 in2
  | .div => aluDiv in1 in2

end Sys2Proof.Machine
end

