-- ==== Sys2Proof/Machine/Ops.lean ====
section
/-! DEFINITION. The named operations over registers, memory, the counters, faults and the
observer's record. -/

namespace Sys2Proof.Machine

/-! ### Memory: spec/20_memory.md -/

/-- The word at key `k` of a cell list; a key not listed reads `Config.fillWord`. -/
def cellsRead (cells : List MemCell) (k : Nat) : Word :=
  match cells with
  | [] => Config.fillWord
  | (k', w) :: rest => if k = k' then w else cellsRead rest k

/-- The cell `(k, w)` in front of `rest`, not listed where it is what an unlisted key reads as. -/
def cellsCons (k : Nat) (w : Word) (rest : List MemCell) : List MemCell :=
  if w = Config.fillWord then rest else (k, w) :: rest

/-- The cell list with key `k` set to `w`, in the same order. -/
def cellsWrite (cells : List MemCell) (k : Nat) (w : Word) : List MemCell :=
  match cells with
  | [] => cellsCons k w []
  | (k', w') :: rest =>
    if k < k' then cellsCons k w ((k', w') :: rest)
    else if k = k' then cellsCons k w rest
    else (k', w') :: cellsWrite rest k w

/-- The canonical form: `MEM_SIZE` in the range of 00_scope.md R4, addresses strictly rising and
valid, no listed word equal to what an unlisted address reads as. -/
abbrev Memory.wf (m : Memory) : Prop :=
  (1 ≤ m.size ∧ m.size ≤ Config.maxMemSize)
    ∧ m.cells.Pairwise (fun c d => c.1 < d.1)
    ∧ ∀ c ∈ m.cells, c.1 < m.size ∧ c.2 ≠ Config.fillWord

/-- The valid addresses (R50): 0 ≤ a < `MEM_SIZE`, the address read as a signed value. -/
abbrev Memory.valid (m : Memory) (a : Word) : Prop := 0 ≤ a.toInt ∧ a.toInt < m.size

/-- `MemRead(a, 1)` of R52: the word at `a`, or none where the memory answers out-of-range. -/
def Memory.read (m : Memory) (a : Word) : Option Word :=
  if m.valid a then some (cellsRead m.cells a.toInt.toNat) else none

/-- `MemWrite(a, 1, v)` of R53: the memory with `v` at `a`, or none where it answers
out-of-range. -/
def Memory.write (m : Memory) (a v : Word) : Option Memory :=
  if m.valid a then some { m with cells := cellsWrite m.cells a.toInt.toNat v } else none

/-! ### Registers: spec/10_state.md -/

/-- `x[i]` (R21, R22): register 0 reads 0, register 15 is the program counter's cell. -/
def State.readReg (s : State) (i : RegNum) : Word := if i = 0 then 0 else s.regs[i]

/-- `x[i] <- v` (R21, R22): a write of register 0 has no effect. -/
def State.writeReg (s : State) (i : RegNum) (v : Word) : State :=
  if i = 0 then s else { s with regs := s.regs.set i v }

/-- `pc`, the value of register 15 (R26). -/
def State.pc (s : State) : Word := s.readReg 15

/-! ### The parts of a step: spec/41_cpu_step.md -/

/-- Part 3: one event on the observer port (R136), and nothing else. -/
def State.emit (s : State) (e : StepEvent) : State := { s with trace := e :: s.trace }

/-- Part 5: the flag register takes the ALU's flag (R138), and V halts at once (R139). -/
def State.setFlag (s : State) (f : AluFlag) : State :=
  { s with flag := f.bits, halted := if f = .overflow then true else s.halted }

/-- Part 6: the pc advances by one word and wraps (R140), and the step is counted (R143). The
increment does not go through the ALU. -/
def State.advance (s : State) : State :=
  { s.writeReg 15 (wrapW (s.pc.toInt + 1)) with steps := s.steps + 1 }

/-- The commit of HALT (R141). -/
def State.halt (s : State) : State := { s with halted := true }

/-- The end of a step inside `run` (R130, R131): HALTED exactly when `halted` is true. -/
def State.settle (s : State) : State := if s.halted then { s with runState := .halted } else s

/-! ### Faults: spec/60_exceptions.md -/

/-- The codes of R201. -/
def FaultKind.code : FaultKind → Nat
  | .machineFaultV => 1
  | .fetchOutOfRange => 2
  | .loadOutOfRange => 3
  | .storeOutOfRange => 4
  | .illegalInstruction => 5

/-- The run ends in FAULTED, which records the kind and its information (R203, R204;
10_state.md R34). Nothing else changes: this machine has no trap, no vector and no saved state
(R200). -/
def State.fail (s : State) (kind : FaultKind) (info : Word) : State :=
  { s with runState := .faulted { kind, info } }

/-- `raise Fault(FETCH_OUT_OF_RANGE, a)`. -/
def raiseFetch (a : Word) (s : State) : Answer :=
  .fault (.fetchOutOfRange a (s.fail .fetchOutOfRange a))

/-- `raise Fault(ILLEGAL_INSTRUCTION, word)`. -/
def raiseIllegal (word : Word) (s : State) : Answer :=
  .fault (.illegalInstruction word (s.fail .illegalInstruction word))

/-- `raise Fault(LOAD_OUT_OF_RANGE, a)`. -/
def raiseLoad (a : Word) (s : State) : Answer :=
  .fault (.loadOutOfRange a (s.fail .loadOutOfRange a))

/-- `raise Fault(STORE_OUT_OF_RANGE, a)`. -/
def raiseStore (a : Word) (s : State) : Answer :=
  .fault (.storeOutOfRange a (s.fail .storeOutOfRange a))

/-! ### Commit: part 7 of the step, spec/41_cpu_step.md R141 -/

/-- The commit of ADD, SUB, MUL and DIV: `x[rT] <- result`. -/
def commitResult (rT : RegNum) (result : Word) (s : State) : Answer :=
  .next (s.writeReg rT result)

/-- The commit of LOAD: `x[rT] <- MemRead(result, 1)`. The read is made for every `rT`, 0 too. -/
def commitLoad (rT : RegNum) (result : Word) (s : State) : Answer :=
  match s.mem.read result with
  | some v => .next (s.writeReg rT v)
  | none => raiseLoad result s

/-- The commit of STORE: `MemWrite(result, 1, x[rT])`, `x[rT]` read now, after the pc advance. -/
def commitStore (rT : RegNum) (result : Word) (s : State) : Answer :=
  match s.mem.write result (s.readReg rT) with
  | some m => .next { s with mem := m }
  | none => raiseStore result s

/-- The commit of HALT: `halted <- true`; the result is not used. -/
def commitHalt (_result : Word) (s : State) : Answer := .next s.halt

/-- Parts 4 to 7 of every step (R144): the enable test, the flag and the V halt, the pc advance,
and the commit, made only when the instruction is enabled and its flag is not V (R142). `alu` is
the ALU's pair for the instruction's operands, both read in the state `s` before the advance. -/
def conduct (cond : CondMask) (alu : Word × AluFlag) (commit : Word → State → Answer)
    (s : State) : Answer :=
  if enabled s.flag cond then
    let advanced := (s.setFlag alu.2).advance
    if alu.2 = .overflow then .next advanced else commit alu.1 advanced
  else .next s.advance

end Sys2Proof.Machine
end

