-- ==== Sys2Proof/Machine/Operands.lean ====
section
/-! DEFINITION. The one operand form of every instruction: spec/30_encoding.md R83 and
spec/40_alu.md R101. -/

namespace Sys2Proof.Machine

/-- The ALU's first operand, `x[rS1]` (R83). Read before the pc advance, so register 15 reads the
instruction's own address (41_cpu_step.md R138). -/
def State.operand1 (s : State) (rS1 : RegNum) : Word := s.readReg rS1

/-- The ALU's second operand, `x[rS2] + off`, the exact integer sum without wrap-around (R83). -/
def State.operand2 (s : State) (rS2 : RegNum) (off : Int) : Int := (s.readReg rS2).toInt + off

end Sys2Proof.Machine
end

