-- ==== Sys2Proof/Machine/Arithmetic.lean ====
section
/-! DEFINITION. ADD, SUB, MUL and DIV: spec/42_arithmetic.md. -/

namespace Sys2Proof.Machine

/-- ADD (R160). -/
def execAdd (cond : CondMask) (rT rS1 rS2 : RegNum) (off : Int) (s : State) : Answer :=
  conduct cond (aluAdd (s.operand1 rS1) (s.operand2 rS2 off)) (commitResult rT) s

/-- SUB (R161). -/
def execSub (cond : CondMask) (rT rS1 rS2 : RegNum) (off : Int) (s : State) : Answer :=
  conduct cond (aluSub (s.operand1 rS1) (s.operand2 rS2 off)) (commitResult rT) s

/-- MUL (R162). -/
def execMul (cond : CondMask) (rT rS1 rS2 : RegNum) (off : Int) (s : State) : Answer :=
  conduct cond (aluMul (s.operand1 rS1) (s.operand2 rS2 off)) (commitResult rT) s

/-- DIV (R163). -/
def execDiv (cond : CondMask) (rT rS1 rS2 : RegNum) (off : Int) (s : State) : Answer :=
  conduct cond (aluDiv (s.operand1 rS1) (s.operand2 rS2 off)) (commitResult rT) s

end Sys2Proof.Machine
end

