-- ==== Sys2Proof/Machine/Control.lean ====
section
/-! DEFINITION. HALT: spec/44_control.md R190. Jumps are committed writes of register 15 (R191) and
have no definition of their own. -/

namespace Sys2Proof.Machine

/-- HALT (R190). `rT` has no effect; the operands reach the ALU, which ignores them. -/
def execHalt (cond : CondMask) (_rT rS1 rS2 : RegNum) (off : Int) (s : State) : Answer :=
  conduct cond (aluHalt (s.operand1 rS1) (s.operand2 rS2 off)) commitHalt s

end Sys2Proof.Machine
end

