-- ==== Sys2Proof/Machine/LoadStore.lean ====
section
/-! DEFINITION. LOAD and STORE: spec/43_memory_ops.md. -/

namespace Sys2Proof.Machine

/-- LOAD (R180). -/
def execLoad (cond : CondMask) (rT rS1 rS2 : RegNum) (off : Int) (s : State) : Answer :=
  conduct cond (aluLoad (s.operand1 rS1) (s.operand2 rS2 off)) (commitLoad rT) s

/-- STORE (R181). -/
def execStore (cond : CondMask) (rT rS1 rS2 : RegNum) (off : Int) (s : State) : Answer :=
  conduct cond (aluStore (s.operand1 rS1) (s.operand2 rS2 off)) (commitStore rT) s

end Sys2Proof.Machine
end

