-- ==== Sys2Proof/Machine/Dispatch.lean ====
section
/-! DEFINITION. The dispatch: one arm for each constructor of Instr. -/

namespace Sys2Proof.Machine

def exec (i : Instr) (s : State) : Host.Outcome State Fault Refusal :=
  match i with
  | .halt cond rT rS1 rS2 off => Sys2Proof.Machine.execHalt cond rT rS1 rS2 off s
  | .load cond rT rS1 rS2 off => Sys2Proof.Machine.execLoad cond rT rS1 rS2 off s
  | .store cond rT rS1 rS2 off => Sys2Proof.Machine.execStore cond rT rS1 rS2 off s
  | .add cond rT rS1 rS2 off => Sys2Proof.Machine.execAdd cond rT rS1 rS2 off s
  | .sub cond rT rS1 rS2 off => Sys2Proof.Machine.execSub cond rT rS1 rS2 off s
  | .mul cond rT rS1 rS2 off => Sys2Proof.Machine.execMul cond rT rS1 rS2 off s
  | .div cond rT rS1 rS2 off => Sys2Proof.Machine.execDiv cond rT rS1 rS2 off s

end Sys2Proof.Machine
end

