-- ==== Sys2Proof/Machine/Cycle.lean ====
section
/-! DEFINITION. The step of a running core: spec/41_cpu_step.md R134 to R144. -/

namespace Sys2Proof.Machine

/-- Part 1, the fetch (R134): the word at pc, or none where pc is not a valid address. -/
def State.fetch (s : State) : Option Word := s.mem.read s.pc

/-- The end of a step applied to what a meaning answers (R130, R131). -/
def settleAnswer : Answer → Answer
  | .next s => .next s.settle
  | .fault f => .fault f
  | .refused r => .refused r

/-- One step in run state RUNNING (R144): fetch, decode, observe, then parts 4 to 7, which are
`exec`; at the end the run state becomes HALTED if `halted` is true. -/
def cycle (s : State) : Answer :=
  match s.fetch with
  | none => raiseFetch s.pc s
  | some word =>
    match decode word with
    | .error _ => raiseIllegal word s
    | .ok i => settleAnswer (exec i (s.emit { pc := s.pc, word := word, instr := i }))

end Sys2Proof.Machine
end

