-- ==== Sys2Proof/Machine/HostPort.lean ====
section
/-! DEFINITION. What the host does to the machine between steps: the host control and host status
ports of spec/41_cpu_step.md R149. Notes: notes/assumptions/6.md and 12.md. -/

namespace Sys2Proof.Machine

/-- The start of `run(FROM_ADDR, ...)` (R131, 70_reset_and_hazards.md R231): `halted` cleared, pc at
`from`, run state RUNNING, from any run state; nothing else is written (10_state.md R37). -/
def State.startRun (s : State) (fromAddr : Word) : State :=
  { s.writeReg 15 fromAddr with halted := false, runState := .running }

/-- The host's abort between steps (R147): RUNNING goes to IDLE, the rest is as the last complete
step left it. In the other run states there is no run to abort, and HALTED and FAULTED are left
only by `run` (R130). -/
def State.abort (s : State) : State :=
  match s.runState with
  | .running => { s with runState := .idle }
  | _ => s

/-- The loader's act on one word (70_reset_and_hazards.md R233 item 1): the word placed at an
address of the memory; no effect at an address the memory does not have. -/
def State.placeWord (s : State) (a word : Word) : State :=
  match s.mem.write a word with
  | some m => { s with mem := m }
  | none => s

/-- What the host reads at the status port (R149), "for post-mortem inspection". -/
structure HostStatus where
  runState : RunState
  halted : Bool
  report : Option FaultReport
  regs : Vector Word 16
  flag : CondMask
  steps : Nat
  deriving DecidableEq, Repr

/-- The fault report of a run state, if it is FAULTED. -/
def reportOf : RunState → Option FaultReport
  | .faulted r => some r
  | .idle | .running | .halted => none

/-- The host's read access to the core (R149). -/
def State.hostStatus (s : State) : HostStatus where
  runState := s.runState
  halted := s.halted
  report := reportOf s.runState
  regs := Vector.ofFn s.readReg
  flag := s.flag
  steps := s.steps

end Sys2Proof.Machine
end

