-- ==== Sys2Proof/Machine/Step.lean ====
section
/-! DEFINITION. The step function: spec/41_cpu_step.md R144 and R150. -/

namespace Sys2Proof.Machine

/-- One step. "No step is taken in run state IDLE, HALTED or FAULTED" (R150). -/
def step (s : State) : Host.Outcome State Fault Refusal :=
  match s.runState with
  | .running => cycle s
  | .idle => .refused (.notRunning .idle)
  | .halted => .refused (.notRunning .halted)
  | .faulted r => .refused (.notRunning (.faulted r))

/-- The state in which the very next step fetches the instruction whose bits are `w`: the loader
has placed its word at pc (at address 0 if pc is not valid), and the host has called `run` with
that address. notes/assumptions/5.md. -/
def State.withFetchWord (s : State) (nbits w : Nat) : State :=
  let a := if s.mem.valid s.pc then s.pc else 0
  (s.startRun a).placeWord a (BitVec.ofNat 32 (w % 2 ^ nbits))

end Sys2Proof.Machine
end

