-- ==== Sys2Proof/Machine/Pseudo.lean ====
section
/-! DEFINITION. The pseudo-instructions of spec/30_encoding.md R81: each is an abbreviation of one
real instruction. -/

namespace Sys2Proof.Machine

/-- `JUMP[/c] off` stands for `ADD/c r15,r0,r15[off]`. -/
def pseudoJump (cond : CondMask) (off : Int) : Instr := .add cond 15 0 15 off

/-- `JUMP[/c] label` at address `a` stands for `ADD/c r15,r0,r15[label - a]`. -/
def pseudoJumpTo (cond : CondMask) (label a : Int) : Instr := pseudoJump cond (label - a)

/-- `MOVE[/c] rT,rS` stands for `ADD/c rT,rS,r0[0]`. -/
def pseudoMove (cond : CondMask) (rT rS : RegNum) : Instr := .add cond rT rS 0 0

/-- `LOADI[/c] rT,k` stands for `ADD/c rT,r0,r0[k]`. -/
def pseudoLoadi (cond : CondMask) (rT : RegNum) (k : Int) : Instr := .add cond rT 0 0 k

/-- `CMP[/c] rA,rB` stands for `SUB/c r0,rA,rB[0]`. -/
def pseudoCmp (cond : CondMask) (rA rB : RegNum) : Instr := .sub cond 0 rA rB 0

/-- `NOP` stands for `ADD/NEVER r0,r0,r0[0]`. -/
def pseudoNop : Instr := .add maskNever 0 0 0 0

end Sys2Proof.Machine
end

