-- ==== Sys2Proof/Machine/Run.lean ====
section
/-! DEFINITION. The run loop: spec/41_cpu_step.md R131 to R133 and R147. Notes:
notes/assumptions/18.md. -/

namespace Sys2Proof.Machine

/-- What the host signals at the top of one pass of the run loop (R131, R133, R147). -/
inductive HostSignal where
  /-- Continue: a single-step run takes its next step. -/
  | go
  /-- No signal yet: a single-step run waits, another run goes on. -/
  | wait
  /-- Abort the run. -/
  | abort
  deriving DecidableEq, Repr

/-- How a run ends, with the state it leaves. -/
inductive RunEnd where
  /-- The run ended in HALTED. -/
  | halted (s : State)
  /-- A step raised a fault; the fault carries the state left. -/
  | faulted (f : Fault)
  /-- The host aborted between steps. -/
  | aborted (s : State)
  /-- The signals ran out: "not finished", never reported as halted (R132). -/
  | unfinished (s : State)
  /-- A step was refused; no run that `startRun` began ends so. -/
  | refused (r : Refusal)
  deriving DecidableEq, Repr

/-- The loop of R131, one signal of the host for each pass: the list is the fuel of R132.
`single` is SINGLE_STEP: then a step is taken only on `go`, and the gate changes no state (R133). -/
def runLoop (single : Bool) (signals : List HostSignal) (s : State) : RunEnd :=
  match signals with
  | [] => .unfinished s
  | .abort :: _ => .aborted s.abort
  | sig :: rest =>
    if single = true ∧ sig = .wait then runLoop single rest s
    else match step s with
      | .next t => if t.halted then .halted t else runLoop single rest t
      | .fault f => .faulted f
      | .refused r => .refused r

/-- `run(FROM_ADDR, SINGLE_STEP)` (R131). -/
def run (fromAddr : Word) (single : Bool) (signals : List HostSignal) (s : State) : RunEnd :=
  runLoop single signals (s.startRun fromAddr)

end Sys2Proof.Machine
end

