-- ==== Sys2Proof/Safety.lean ====
section
/-! DEFINITION. The terms claims are stated in: the invariant of the machine, what a step leaves and
reports, and the relations between the state before and the state after. -/

namespace Sys2Proof.Machine

/-! ### The invariant -/

/-- The values the flag register may hold (10_state.md R28): M, Z, P, V, or ALWAYS, its value before
the first enabled instruction. -/
abbrev legalFlag (f : CondMask) : Prop := f = 1 ∨ f = 2 ∨ f = 4 ∨ f = 8 ∨ f = 15

/-- What holds of every state the machine can be in: the zero register's cell was never written
(10_state.md R21), the flag register holds a legal value (R28), HALTED is exactly `halted`
(R34), the memory has its canonical form, and the observer's record has one event for each counted
step (41_cpu_step.md R136, R143), each event an instruction its word decodes to. -/
abbrev State.Inv (s : State) : Prop :=
  s.regs[0] = 0
    ∧ legalFlag s.flag
    ∧ (s.runState = .halted ↔ s.halted = true)
    ∧ s.mem.wf
    ∧ s.trace.length = s.steps
    ∧ ∀ e ∈ s.trace, decode e.word = .ok e.instr

/-! ### What a step leaves and what it reports -/

/-- The state a fault leaves (60_exceptions.md R203, R204). -/
def Fault.left : Fault → State
  | .fetchOutOfRange _ t | .illegalInstruction _ t | .loadOutOfRange _ t
  | .storeOutOfRange _ t => t

/-- The kind of a fault (60_exceptions.md R201). -/
def Fault.kind : Fault → FaultKind
  | .fetchOutOfRange _ _ => .fetchOutOfRange
  | .illegalInstruction _ _ => .illegalInstruction
  | .loadOutOfRange _ _ => .loadOutOfRange
  | .storeOutOfRange _ _ => .storeOutOfRange

/-- The information of a fault: the address or the word the host receives (60_exceptions.md
R201). -/
def Fault.info : Fault → Word
  | .fetchOutOfRange a _ | .illegalInstruction a _ | .loadOutOfRange a _
  | .storeOutOfRange a _ => a

/-- The state after an answer given in state `s`: the next state, the state a fault leaves, and `s`
itself where no step is taken. -/
def stateLeft (s : State) : Answer → State
  | .next t => t
  | .fault f => f.left
  | .refused _ => s

/-- The event of 60_exceptions.md R201 an answer reports: a fault's kind, or MACHINE_FAULT_V, which
the host reads from `halted` and `flag` (R202). -/
def reported : Answer → Option FaultKind
  | .next t => if t.halted = true ∧ t.flag = 8 then some .machineFaultV else none
  | .fault f => some f.kind
  | .refused _ => none

/-- A step that ends neither in a fault nor in a refusal: what "the program is safe" means of one
step (60_exceptions.md R203: a fatal error "indicates a malformed program or loader bug"). -/
def goesOn (a : Answer) : Prop := ∃ t, a = .next t

/-- The state a run ends in, if a step of it was not refused. -/
def RunEnd.state? : RunEnd → Option State
  | .halted t | .aborted t | .unfinished t => some t
  | .faulted f => some f.left
  | .refused _ => none

/-! ### The spec's own words for an exact result -/

/-- `raw` is outside the signed 32-bit range (00_scope.md R8, 40_alu.md R102). -/
abbrev overflows (raw : Int) : Prop := raw < -2147483648 ∨ 2147483647 < raw

/-- The 4-bit flag pattern of an exact result: V if it overflows, else Z, M or P by its sign
(40_alu.md R102, 10_state.md R29). -/
def signFlag (raw : Int) : CondMask :=
  if overflows raw then 8 else if raw = 0 then 2 else if raw < 0 then 1 else 4

/-- The quotient of `a` by `b` rounded toward zero, as 00_scope.md R8 writes it:
sign(a)·sign(b)·floor(|a| / |b|). -/
def signedQuotient (a b : Int) : Int := a.sign * b.sign * ((a.natAbs / b.natAbs : Nat) : Int)

/-! ### An instruction in a state -/

/-- The ALU's pair for an instruction's operands read in `s` (41_cpu_step.md R138). -/
def aluOf (i : Instr) (s : State) : Word × AluFlag :=
  alu i.op (s.operand1 i.rS1) (s.operand2 i.rS2 i.off)

/-- The instruction is enabled in `s` (41_cpu_step.md R137). -/
abbrev enabledIn (i : Instr) (s : State) : Prop := enabled s.flag i.cond = true

/-- The instruction is enabled in `s` and its ALU flag there is V (41_cpu_step.md R139). -/
abbrev overflowsIn (i : Instr) (s : State) : Prop := enabledIn i s ∧ (aluOf i s).2 = .overflow

/-- The instruction's commit runs: enabled and its ALU flag is not V (41_cpu_step.md R142). -/
abbrev commitsIn (i : Instr) (s : State) : Prop := enabledIn i s ∧ (aluOf i s).2 ≠ .overflow

/-- The instruction writes a register at its commit (41_cpu_step.md R141). -/
abbrev writesRegister (i : Instr) : Prop := i.op ≠ .store ∧ i.op ≠ .halt

/-- The instruction that `step` runs in `s`: the word at pc decodes to `i`. -/
abbrev runsNext (s : State) (word : Word) (i : Instr) : Prop :=
  s.runState = .running ∧ s.mem.read s.pc = some word ∧ decode word = .ok i

/-! ### The state before and the state after -/

/-- The memory reads the same at every address, and has the same size. -/
def SameMemory (s t : State) : Prop := t.mem.size = s.mem.size ∧ ∀ a, t.mem.read a = s.mem.read a

/-- The memory reads the same at every address but `a`, and has the same size. -/
def SameMemoryBut (a : Word) (s t : State) : Prop :=
  t.mem.size = s.mem.size ∧ ∀ b, b ≠ a → t.mem.read b = s.mem.read b

/-- Every register but 15 reads the same, and register 15 reads one more (41_cpu_step.md R140). -/
def OnlyPcAdvanced (s t : State) : Prop :=
  t.pc = s.pc + 1 ∧ ∀ r, r ≠ 15 → t.readReg r = s.readReg r

/-- Register `rT` reads `v` (register 0 reads 0: a write of it is discarded), register 15 reads one
more unless it is `rT`, and every other register reads the same (10_state.md R21, R22). -/
def RegisterWritten (rT : RegNum) (v : Word) (s t : State) : Prop :=
  (rT ≠ 0 → t.readReg rT = v) ∧ t.readReg 0 = 0 ∧ (rT ≠ 15 → t.pc = s.pc + 1)
    ∧ ∀ r, r ≠ rT → r ≠ 15 → t.readReg r = s.readReg r

/-- The step counter is one more, the run state and the observer's record are unchanged: what `exec`
does to them in every instruction. -/
def Counted (s t : State) : Prop :=
  t.steps = s.steps + 1 ∧ t.runState = s.runState ∧ t.trace = s.trace

/-- What 42_arithmetic.md R160 to R163 give ADD, SUB, MUL and DIV: `flag` is the pattern of the ALU's
flag, 8 (V) among them, and `result` its result. -/
def ArithmeticEffect (cond : CondMask) (rT : RegNum) (flag : CondMask) (result : Word)
    (s t : State) : Prop :=
  Counted s t ∧ SameMemory s t
    ∧ (enabled s.flag cond = false →
        t.flag = s.flag ∧ t.halted = s.halted ∧ OnlyPcAdvanced s t)
    ∧ (enabled s.flag cond = true → flag = 8 →
        t.flag = 8 ∧ t.halted = true ∧ OnlyPcAdvanced s t)
    ∧ (enabled s.flag cond = true → flag ≠ 8 →
        t.flag = flag ∧ t.halted = s.halted ∧ RegisterWritten rT result s t)

/-- Parts 1 to 6 of the step of a LOAD or STORE, with nothing committed (60_exceptions.md R203): the
state left by a data access out of range, FAULTED with `kind` and the address `a`. -/
def LeftByBadAccess (kind : FaultKind) (a : Word) (flag : CondMask) (s t : State) : Prop :=
  t.steps = s.steps + 1 ∧ t.flag = flag ∧ t.halted = s.halted ∧ OnlyPcAdvanced s t
    ∧ SameMemory s t ∧ t.runState = .faulted { kind := kind, info := a }

end Sys2Proof.Machine
end

