-- ==== Sys2Proof/Certificates/Slice0/Obligations.lean ====
section
/-! DEFINITION. The statements for the provers. Each docstring names the rule of spec/ it
formalises. -/

open Sys2Proof Sys2Proof.Machine

/-! ### Encoding -/

/-- 30_encoding.md R79: the encoder's number, its range, and the round trip in both directions. -/
def Obligations.DecodeEncodeAgree : Prop :=
  (∀ i : Instr, i.WellFormed →
    decode (encode i) = .ok i
      ∧ (encode i).toNat = ((opcodeNumber i.op).toNat <<< 26 ||| i.cond.toNat <<< 22
          ||| i.rT.val <<< 18 ||| i.rS1.val <<< 14 ||| i.rS2.val <<< 10 ||| (i.off % 1024).toNat)
      ∧ (encode i).toNat < 2147483648 ∧ 0 ≤ (encode i).toInt)
  ∧ ∀ (w : Word) (i : Instr), decode w = .ok i → encode i = w

/-- 30_encoding.md R71, R72 and R75: which words decode, and every field at its bits. -/
def Obligations.DecodeReadsTheFieldBits : Prop :=
  ∀ w : Word,
    let u := w.toNat
    (u / 2147483648 = 1 ∨ 6 < u / 67108864 % 32 → ∃ e, decode w = .error e)
    ∧ (u / 2147483648 = 0 → u / 67108864 % 32 ≤ 6 → ∃ i, decode w = .ok i
        ∧ [Opcode.halt, .load, .store, .add, .sub, .mul, .div][u / 67108864 % 32]? = some i.op
        ∧ i.cond.toNat = u / 4194304 % 16
        ∧ i.rT.val = u / 262144 % 16
        ∧ i.rS1.val = u / 16384 % 16
        ∧ i.rS2.val = u / 1024 % 16
        ∧ i.off = (if u % 1024 < 512 then (u % 1024 : Int) else (u % 1024 : Int) - 1024)
        ∧ -512 ≤ i.off ∧ i.off ≤ 511)

/-- A few of the spec's own words (30_encoding.md R79's table, 95_test_vectors.md 2.3), written out
field by field, decode to the instructions they stand for. -/
def Obligations.SpecWordsDecode : Prop :=
  decode 0b0_00000_1111_0000_0000_0000_0000000000#32 = .ok (.halt 15 0 0 0 0)
  ∧ decode 0b0_00001_1111_0010_0000_0000_0000010100#32 = .ok (.load 15 2 0 0 20)
  ∧ decode 0b0_00010_1111_0010_0000_0000_0000001010#32 = .ok (.store 15 2 0 0 10)
  ∧ decode 0b0_00011_1111_1111_0000_1111_1111111101#32 = .ok (.add 15 15 0 15 (-3))
  ∧ decode 0b0_00100_1111_0000_0001_0010_0000000000#32 = .ok (.sub 15 0 1 2 0)
  ∧ decode 0b0_00101_1111_0010_0010_0001_0000000000#32 = .ok (.mul 15 2 2 1 0)
  ∧ decode 0b0_00110_1111_0011_0001_0000_0000000000#32 = .ok (.div 15 3 1 0 0)
  ∧ decode 0#32 = .ok (.halt 0 0 0 0 0)
  ∧ decode 0x1C000000#32 = .error (.unknownOpcode 7)
  ∧ decode 0x80000000#32 = .error .reservedBit

/-- 30_encoding.md R76, 60_exceptions.md R204: an illegal word stops the step at its decode, the
state left is the state before the step but for the run state, whatever the condition field. -/
def Obligations.IllegalWordFaults : Prop :=
  ∀ (s : State) (w : Word), s.runState = .running → s.mem.read s.pc = some w →
    (w.toNat / 2147483648 = 1 ∨ 7 ≤ w.toNat / 67108864 % 32) →
    step s = .fault (.illegalInstruction w
      { s with runState := .faulted { kind := .illegalInstruction, info := w } })

/-! ### The step -/

/-- 41_cpu_step.md R144: the step of a running core whose pc word decodes is `exec` of that
instruction on the state with the observer's event recorded; at the end the run state becomes HALTED
if `halted` is true. -/
def Obligations.StepRunsTheDecodedInstruction : Prop :=
  ∀ (s : State) (w : Word) (i : Instr), runsNext s w i → i.WellFormed →
    step s =
      match exec i { s with trace := { pc := s.pc, word := w, instr := i } :: s.trace } with
      | .next t => .next (if t.halted = true then { t with runState := .halted } else t)
      | .fault f => .fault f
      | .refused r => .refused r

/-- 41_cpu_step.md R150. -/
def Obligations.NoStepOutsideRunning : Prop :=
  ∀ s : State, s.runState ≠ .running → step s = .refused (.notRunning s.runState)

/-- 41_cpu_step.md R130: every transition of the run state. That an abort in HALTED or FAULTED has no
effect (`s.abort = s`) is the model's deduction, DEDUCED in notes/assumptions/12.md: R130 says only
that those states are left only by `run`. -/
def Obligations.RunStateTransitions : Prop :=
  (∀ (s : State) (a : Word), (s.startRun a).runState = .running)
  ∧ (∀ s : State, s.runState = .running → s.abort.runState = .idle)
  ∧ (∀ s : State, (s.runState = .halted ∨ ∃ r, s.runState = .faulted r) →
      s.abort = s ∧ stateLeft s (step s) = s)
  ∧ ∀ s : State, s.runState = .running →
      (∃ t, step s = .next t ∧ t.runState = (if t.halted = true then .halted else .running))
      ∨ ∃ f, step s = .fault f ∧ f.left.runState = .faulted { kind := f.kind, info := f.info }

/-- 60_exceptions.md R205: a step reports at most one event, that of the first check that applies
in step order, and an enabled HALT reports none. -/
def Obligations.StepReportsTheFirstCheck : Prop :=
  ∀ s : State, s.Inv → s.runState = .running →
    (¬ s.mem.valid s.pc → reported (step s) = some .fetchOutOfRange)
    ∧ ∀ w, s.mem.read s.pc = some w →
      (∀ e, decode w = .error e → reported (step s) = some .illegalInstruction)
      ∧ ∀ i, decode w = .ok i →
        (overflowsIn i s → reported (step s) = some .machineFaultV)
        ∧ (commitsIn i s → ¬ s.mem.valid (aluOf i s).1 → i.op = .load →
            reported (step s) = some .loadOutOfRange)
        ∧ (commitsIn i s → ¬ s.mem.valid (aluOf i s).1 → i.op = .store →
            reported (step s) = some .storeOutOfRange)
        ∧ (¬ overflowsIn i s →
            ¬ (commitsIn i s ∧ ¬ s.mem.valid (aluOf i s).1 ∧ (i.op = .load ∨ i.op = .store)) →
            reported (step s) = none)
        ∧ (i.op = .halt → reported (step s) = none)

/-- 60_exceptions.md R203: what a fatal memory error reports and the state it leaves, at the fetch,
at a LOAD and at a STORE. -/
def Obligations.FatalMemoryErrorsLeave : Prop :=
  (∀ s : State, s.runState = .running → ¬ s.mem.valid s.pc →
    step s = .fault (.fetchOutOfRange s.pc
      { s with runState := .faulted { kind := .fetchOutOfRange, info := s.pc } }))
  ∧ ∀ (s : State) (w : Word) (i : Instr), s.Inv → runsNext s w i → commitsIn i s →
      ¬ s.mem.valid (aluOf i s).1 →
      (i.op = .load → ∃ t, step s = .fault (.loadOutOfRange (aluOf i s).1 t)
        ∧ LeftByBadAccess .loadOutOfRange (aluOf i s).1 (aluOf i s).2.bits s t
        ∧ t.halted = false ∧ t.flag ≠ 8
        ∧ t.trace = { pc := s.pc, word := w, instr := i } :: s.trace)
      ∧ (i.op = .store → ∃ t, step s = .fault (.storeOutOfRange (aluOf i s).1 t)
        ∧ LeftByBadAccess .storeOutOfRange (aluOf i s).1 (aluOf i s).2.bits s t
        ∧ t.halted = false ∧ t.flag ≠ 8
        ∧ t.trace = { pc := s.pc, word := w, instr := i } :: s.trace)

/-- 41_cpu_step.md R145: pc after a step that does not fault. -/
def Obligations.PcAfterStep : Prop :=
  ∀ (s t : State) (w : Word) (i : Instr), runsNext s w i → step s = .next t →
    (¬ (commitsIn i s ∧ writesRegister i ∧ i.rT = 15) → t.pc = s.pc + 1)
    ∧ (commitsIn i s → i.rT = 15 → (i.op = .add ∨ i.op = .sub ∨ i.op = .mul ∨ i.op = .div) →
        t.pc = (aluOf i s).1)
    ∧ (commitsIn i s → i.rT = 15 → i.op = .load → s.mem.read (aluOf i s).1 = some t.pc)

/-- 10_state.md R32: when `halted` becomes true, what clears it, and that no instruction does. -/
def Obligations.HaltedExactlyWhen : Prop :=
  (∀ (s t : State) (w : Word) (i : Instr), s.Inv → runsNext s w i → step s = .next t →
    (t.halted = true ↔ (enabledIn i s ∧ i.op = .halt) ∨ overflowsIn i s))
  ∧ (∀ (s : State) (a : Word), (s.startRun a).halted = false)
  ∧ ∀ (i : Instr) (s t : State), exec i s = .next t → s.halted = true → t.halted = true

/-- 60_exceptions.md R202: the step of an instruction whose ALU flag is V, and how the host tells it
from a HALT. -/
def Obligations.OverflowHaltsWithoutCommit : Prop :=
  (∀ (s : State) (w : Word) (i : Instr), s.Inv → runsNext s w i → overflowsIn i s →
    ∃ t, step s = .next t ∧ t.flag = 8 ∧ t.halted = true ∧ t.runState = .halted
      ∧ OnlyPcAdvanced s t ∧ SameMemory s t ∧ t.steps = s.steps + 1)
  ∧ ∀ (s t : State) (w : Word) (i : Instr), s.Inv → runsNext s w i → step s = .next t →
      t.halted = true → (t.flag = 8 ∧ overflowsIn i s) ∨ (t.flag = 2 ∧ i.op = .halt)

/-- 41_cpu_step.md R136 and R143: a step whose word decodes sends one event and counts one step,
also where it ends in a fault; a step that fails to fetch or decode does neither. -/
def Obligations.StepCountsAndSendsOneEvent : Prop :=
  (∀ (s : State) (w : Word) (i : Instr), runsNext s w i →
    (stateLeft s (step s)).steps = s.steps + 1
    ∧ (stateLeft s (step s)).trace = { pc := s.pc, word := w, instr := i } :: s.trace)
  ∧ ∀ s : State, s.runState = .running → (∀ w i, ¬ runsNext s w i) →
      (stateLeft s (step s)).steps = s.steps ∧ (stateLeft s (step s)).trace = s.trace

/-- 60_exceptions.md R213 and R211, 41_cpu_step.md R148: what a step does depends neither on the
observer's record nor on the step counter. -/
def Obligations.ObserversAndCounterAreNoInput : Prop :=
  ∀ (s : State) (n : Nat) (tr : List StepEvent),
    let s' : State := { s with steps := n, trace := tr }
    let t := stateLeft s (step s)
    let t' := stateLeft s' (step s')
    (goesOn (step s) ↔ goesOn (step s')) ∧ reported (step s) = reported (step s')
      ∧ t'.regs = t.regs ∧ t'.flag = t.flag ∧ t'.halted = t.halted ∧ t'.runState = t.runState
      ∧ t'.mem = t.mem

/-- 10_state.md R28 and R31: an enabled instruction leaves a primitive flag, a disabled one leaves
the flag as it was. -/
def Obligations.FlagWrittenExactlyWhenEnabled : Prop :=
  ∀ (i : Instr) (s t : State), exec i s = .next t →
    (enabledIn i s → t.flag = 1 ∨ t.flag = 2 ∨ t.flag = 4 ∨ t.flag = 8)
    ∧ (¬ enabledIn i s → t.flag = s.flag)

/-- 20_memory.md R53 and R54: a step changes no word of memory but the one a committed STORE
writes. -/
def Obligations.OnlyStoreChangesMemory : Prop :=
  ∀ (s t : State) (w : Word) (i : Instr), runsNext s w i → step s = .next t →
    (i.op = .store → commitsIn i s → SameMemoryBut (aluOf i s).1 s t)
    ∧ (¬ (i.op = .store ∧ commitsIn i s) → SameMemory s t)

/-- 20_memory.md R64: a STORE to the next word is seen by the very next fetch. -/
def Obligations.StoreSeenByNextFetch : Prop :=
  ∀ (s : State) (w : Word) (i : Instr), s.Inv → runsNext s w i → i.op = .store → commitsIn i s →
    (aluOf i s).1 = s.pc + 1 → s.mem.valid (s.pc + 1) →
    ∃ t, step s = .next t
      ∧ let v := if i.rT = 15 then s.pc + 1 else s.readReg i.rT
        t.mem.read t.pc = some v ∧ ∀ j, decode v = .ok j → runsNext t v j

/-- 44_control.md R191: a committed register write with `rT` = 15 is a jump, by ADD, SUB, MUL and DIV
to the result and by LOAD to the loaded word. Memory is unchanged, the next step fetches at the
target, and a target out of range faults there, not at the jump. -/
def Obligations.JumpFetchesAtTarget : Prop :=
  ∀ (s : State) (w target : Word) (i : Instr), s.Inv → runsNext s w i → commitsIn i s →
    i.rT = 15 →
    (((i.op = .add ∨ i.op = .sub ∨ i.op = .mul ∨ i.op = .div) ∧ target = (aluOf i s).1)
      ∨ (i.op = .load ∧ s.mem.read (aluOf i s).1 = some target)) →
    ∃ t, step s = .next t ∧ t.pc = target ∧ t.runState = .running ∧ SameMemory s t
      ∧ (¬ s.mem.valid target → ∃ u, step t = .fault (.fetchOutOfRange target u))
      ∧ ∀ v j, s.mem.read target = some v → decode v = .ok j → runsNext t v j

/-- 30_encoding.md R77 and R78: a word whose condition is NEVER only advances pc and steps, and the
all-zero word is one. -/
def Obligations.NeverWordIsNoOp : Prop :=
  decode 0#32 = .ok (.halt 0 0 0 0 0)
  ∧ ∀ (s : State) (w : Word) (i : Instr), s.Inv → runsNext s w i → i.cond = 0 →
      ∃ t, step s = .next t ∧ OnlyPcAdvanced s t ∧ SameMemory s t ∧ t.flag = s.flag
        ∧ t.halted = s.halted ∧ t.runState = .running ∧ t.steps = s.steps + 1

/-! ### Reset and the invariant -/

/-- 10_state.md R36. -/
def Obligations.ResetStateValues : Prop :=
  (∀ r, State.reset.readReg r = 0) ∧ State.reset.pc = 0 ∧ State.reset.flag = 15
    ∧ State.reset.halted = false ∧ State.reset.steps = 0 ∧ State.reset.runState = .idle
    ∧ step State.reset = .refused (.notRunning .idle)

/-- The invariant holds at reset. It rests on the model's choices of the memory's size and contents
(notes/assumptions/1.md, 2.md) and of the empty record (7.md). -/
def Obligations.ResetMeetsInvariant : Prop := State.reset.Inv

/-- Every step that answers a next state keeps the invariant: the zero register's cell (10_state.md
R21), the legal flag values (R28), HALTED exactly `halted` (R34), the memory's canonical form, one
event for each counted step (41_cpu_step.md R136, R143). -/
def Obligations.StepKeepsInvariant : Prop :=
  ∀ s t : State, s.Inv → step s = .next t → t.Inv

/-- The state a fault leaves meets the invariant too (60_exceptions.md R203, R204, R206). -/
def Obligations.FaultLeavesInvariant : Prop :=
  ∀ (s : State) (f : Fault), s.Inv → step s = .fault f → f.left.Inv

/-- What the host does between steps keeps the invariant (41_cpu_step.md R131, R147;
70_reset_and_hazards.md R233). -/
def Obligations.HostActsKeepInvariant : Prop :=
  ∀ s : State, s.Inv →
    (∀ a, (s.startRun a).Inv) ∧ s.abort.Inv ∧ (∀ a w, (s.placeWord a w).Inv)

/-- A whole run, from any address, in either mode, under any signals of the host, ends in a state
that meets the invariant (41_cpu_step.md R131 to R133, R147). The list of signals is the model's
(notes/assumptions/18.md). -/
def Obligations.RunKeepsInvariant : Prop :=
  ∀ (s t : State) (a : Word) (single : Bool) (signals : List HostSignal), s.Inv →
    (run a single signals s).state? = some t → t.Inv

/-! ### The ALU, the enable test, registers and memory -/

/-- 40_alu.md R104, R105, R106, R108 and R109: the exact result, wrapped, and its flag. -/
def Obligations.AluSumsAndProducts : Prop :=
  ∀ (in1 : Word) (in2 : Int),
    (∀ op, (op = Opcode.add ∨ op = .load ∨ op = .store) →
      (alu op in1 in2).1 = BitVec.ofInt 32 (in1.toInt + in2)
      ∧ (alu op in1 in2).2.bits = signFlag (in1.toInt + in2))
    ∧ (alu .sub in1 in2).1 = BitVec.ofInt 32 (in1.toInt - in2)
    ∧ (alu .sub in1 in2).2.bits = signFlag (in1.toInt - in2)
    ∧ (alu .mul in1 in2).1 = BitVec.ofInt 32 (in1.toInt * in2)
    ∧ (alu .mul in1 in2).2.bits = signFlag (in1.toInt * in2)

/-- 40_alu.md R107: division by zero, the quotient toward zero, and the one quotient that does not
fit. -/
def Obligations.AluDivides : Prop :=
  ∀ (in1 : Word) (in2 : Int),
    (in2 = 0 → alu .div in1 in2 = (0, .overflow))
    ∧ (in2 ≠ 0 →
        (alu .div in1 in2).1 = BitVec.ofInt 32 (signedQuotient in1.toInt in2)
        ∧ (alu .div in1 in2).2.bits = signFlag (signedQuotient in1.toInt in2))
    ∧ ((alu .div in1 in2).2 = .overflow ↔ in2 = 0 ∨ (in1.toInt = -2147483648 ∧ in2 = -1))

/-- 40_alu.md R110. -/
def Obligations.AluHaltIsZero : Prop :=
  ∀ (in1 : Word) (in2 : Int), alu .halt in1 in2 = (0, .zero)

/-- 40_alu.md R111: without V, the result is the exact mathematical result. -/
def Obligations.AluExactUnlessOverflow : Prop :=
  ∀ (in1 : Word) (in2 : Int) (op : Opcode), (alu op in1 in2).2 ≠ .overflow →
    (alu op in1 in2).1.toInt =
      match op with
      | .add | .load | .store => in1.toInt + in2
      | .sub => in1.toInt - in2
      | .mul => in1.toInt * in2
      | .div => signedQuotient in1.toInt in2
      | .halt => 0

/-- 41_cpu_step.md R137. -/
def Obligations.EnableTest : Prop :=
  ∀ flag cond : CondMask,
    (cond = 15 → enabled flag cond = true)
    ∧ (cond = 0 → enabled flag cond = false)
    ∧ (cond ≠ 15 → cond ≠ 0 → (enabled flag cond = true ↔ flag &&& cond ≠ 0))
    ∧ (legalFlag flag → (enabled flag cond = true ↔ flag &&& cond ≠ 0))
    ∧ (flag = 15 → (enabled flag cond = true ↔ cond ≠ 0))
    ∧ (flag = 8 → (enabled flag cond = true ↔ cond.getLsbD 3 = true))

/-- 10_state.md R21 and R22. -/
def Obligations.RegisterFile : Prop :=
  ∀ (s : State) (i : RegNum) (v : Word),
    s.readReg 0 = 0 ∧ s.writeReg 0 v = s
    ∧ s.readReg 15 = s.pc ∧ (s.writeReg 15 v).pc = v
    ∧ (i ≠ 0 → (s.writeReg i v).readReg i = v)
    ∧ ∀ j, j ≠ i → (s.writeReg i v).readReg j = s.readReg j

/-- 20_memory.md R52 and R53: the range check, and what a read finds after a write. -/
def Obligations.MemoryPort : Prop :=
  ∀ (m : Memory) (a v : Word), m.wf →
    ((m.read a).isSome = true ↔ 0 ≤ a.toInt ∧ a.toInt < m.size)
    ∧ (¬ (0 ≤ a.toInt ∧ a.toInt < m.size) → m.write a v = none)
    ∧ (0 ≤ a.toInt → a.toInt < m.size → ∃ m', m.write a v = some m' ∧ m'.size = m.size
        ∧ m'.read a = some v ∧ ∀ b, b ≠ a → m'.read b = m.read b)

/-! ### The instructions -/

/-- 42_arithmetic.md R160. -/
def Obligations.AddEffect : Prop :=
  ∀ (cond : CondMask) (rT rS1 rS2 : RegNum) (off : Int) (s : State),
    let raw := (s.readReg rS1).toInt + ((s.readReg rS2).toInt + off)
    opcodeNumber (Instr.add cond rT rS1 rS2 off).op = 3
    ∧ ∃ t, exec (.add cond rT rS1 rS2 off) s = .next t
      ∧ ArithmeticEffect cond rT (signFlag raw) (BitVec.ofInt 32 raw) s t

/-- 42_arithmetic.md R161. -/
def Obligations.SubEffect : Prop :=
  ∀ (cond : CondMask) (rT rS1 rS2 : RegNum) (off : Int) (s : State),
    let raw := (s.readReg rS1).toInt - ((s.readReg rS2).toInt + off)
    opcodeNumber (Instr.sub cond rT rS1 rS2 off).op = 4
    ∧ ∃ t, exec (.sub cond rT rS1 rS2 off) s = .next t
      ∧ ArithmeticEffect cond rT (signFlag raw) (BitVec.ofInt 32 raw) s t

/-- 42_arithmetic.md R162. -/
def Obligations.MulEffect : Prop :=
  ∀ (cond : CondMask) (rT rS1 rS2 : RegNum) (off : Int) (s : State),
    let raw := (s.readReg rS1).toInt * ((s.readReg rS2).toInt + off)
    opcodeNumber (Instr.mul cond rT rS1 rS2 off).op = 5
    ∧ ∃ t, exec (.mul cond rT rS1 rS2 off) s = .next t
      ∧ ArithmeticEffect cond rT (signFlag raw) (BitVec.ofInt 32 raw) s t

/-- 42_arithmetic.md R163. -/
def Obligations.DivEffect : Prop :=
  ∀ (cond : CondMask) (rT rS1 rS2 : RegNum) (off : Int) (s : State),
    let divisor := (s.readReg rS2).toInt + off
    let quotient := signedQuotient (s.readReg rS1).toInt divisor
    opcodeNumber (Instr.div cond rT rS1 rS2 off).op = 6
    ∧ ∃ t, exec (.div cond rT rS1 rS2 off) s = .next t
      ∧ ArithmeticEffect cond rT (if divisor = 0 then 8 else signFlag quotient)
          (BitVec.ofInt 32 quotient) s t

/-- 44_control.md R190. -/
def Obligations.HaltEffect : Prop :=
  ∀ (cond : CondMask) (rT rS1 rS2 : RegNum) (off : Int) (s : State),
    opcodeNumber (Instr.halt cond rT rS1 rS2 off).op = 0
    ∧ ∃ t, exec (.halt cond rT rS1 rS2 off) s = .next t
      ∧ Counted s t ∧ SameMemory s t ∧ OnlyPcAdvanced s t
      ∧ (enabled s.flag cond = true → t.flag = 2 ∧ t.halted = true)
      ∧ (enabled s.flag cond = false → t.flag = s.flag ∧ t.halted = s.halted)

/-- 43_memory_ops.md R180: disabled, V, an address in range, an address out of range. -/
def Obligations.LoadEffect : Prop :=
  ∀ (cond : CondMask) (rT rS1 rS2 : RegNum) (off : Int) (s : State),
    let raw := (s.readReg rS1).toInt + ((s.readReg rS2).toInt + off)
    let a : Word := BitVec.ofInt 32 raw
    let i : Instr := .load cond rT rS1 rS2 off
    opcodeNumber i.op = 1
    ∧ (enabled s.flag cond = false → ∃ t, exec i s = .next t ∧ Counted s t ∧ SameMemory s t
      ∧ OnlyPcAdvanced s t ∧ t.flag = s.flag ∧ t.halted = s.halted)
    ∧ (enabled s.flag cond = true → overflows raw → ∃ t, exec i s = .next t ∧ Counted s t
      ∧ SameMemory s t ∧ OnlyPcAdvanced s t ∧ t.flag = 8 ∧ t.halted = true)
    ∧ (enabled s.flag cond = true → ¬ overflows raw → 0 ≤ raw → raw < s.mem.size →
        ∃ t v, exec i s = .next t ∧ s.mem.read a = some v ∧ Counted s t ∧ SameMemory s t
          ∧ RegisterWritten rT v s t ∧ t.flag = signFlag raw ∧ t.halted = s.halted)
    ∧ (enabled s.flag cond = true → ¬ overflows raw → (raw < 0 ∨ s.mem.size ≤ raw) →
        ∃ t, exec i s = .fault (.loadOutOfRange a t)
          ∧ LeftByBadAccess .loadOutOfRange a (signFlag raw) s t ∧ t.trace = s.trace)

/-- 43_memory_ops.md R181: disabled, V, an address in range, an address out of range. The stored
value is `x[rT]` read after the pc advance, so `a + 1` for `rT` = 15. -/
def Obligations.StoreEffect : Prop :=
  ∀ (cond : CondMask) (rT rS1 rS2 : RegNum) (off : Int) (s : State),
    let raw := (s.readReg rS1).toInt + ((s.readReg rS2).toInt + off)
    let a : Word := BitVec.ofInt 32 raw
    let i : Instr := .store cond rT rS1 rS2 off
    opcodeNumber i.op = 2
    ∧ (enabled s.flag cond = false → ∃ t, exec i s = .next t ∧ Counted s t ∧ SameMemory s t
      ∧ OnlyPcAdvanced s t ∧ t.flag = s.flag ∧ t.halted = s.halted)
    ∧ (enabled s.flag cond = true → overflows raw → ∃ t, exec i s = .next t ∧ Counted s t
      ∧ SameMemory s t ∧ OnlyPcAdvanced s t ∧ t.flag = 8 ∧ t.halted = true)
    ∧ (enabled s.flag cond = true → ¬ overflows raw → 0 ≤ raw → raw < s.mem.size →
        ∃ t, exec i s = .next t ∧ Counted s t ∧ SameMemoryBut a s t ∧ OnlyPcAdvanced s t
          ∧ t.flag = signFlag raw ∧ t.halted = s.halted
          ∧ (s.mem.wf →
              t.mem.read a = some (if rT = 15 then s.pc + 1 else s.readReg rT)))
    ∧ (enabled s.flag cond = true → ¬ overflows raw → (raw < 0 ∨ s.mem.size ≤ raw) →
        ∃ t, exec i s = .fault (.storeOutOfRange a t)
          ∧ LeftByBadAccess .storeOutOfRange a (signFlag raw) s t ∧ t.trace = s.trace)

/-- 41_cpu_step.md R146, for every instruction. -/
def Obligations.DisabledChangesOnlyPcAndSteps : Prop :=
  ∀ (i : Instr) (s : State), ¬ enabledIn i s →
    ∃ t, exec i s = .next t ∧ Counted s t ∧ SameMemory s t ∧ OnlyPcAdvanced s t
      ∧ t.flag = s.flag ∧ t.halted = s.halted

/-- 70_reset_and_hazards.md R235: as an operand register 15 reads the instruction's own address, as
STORE data it reads one more. -/
def Obligations.ProgramCounterReadsTwoWays : Prop :=
  ∀ (s : State) (rT : RegNum) (off : Int), rT ≠ 0 → rT ≠ 15 →
    (∃ t, exec (.add 15 rT 15 0 0) s = .next t ∧ t.readReg rT = s.pc ∧ t.pc = s.pc + 1)
    ∧ (∃ t, exec (.add 15 rT 0 15 0) s = .next t ∧ t.readReg rT = s.pc ∧ t.pc = s.pc + 1)
    ∧ (s.mem.wf → offsetFits off → 0 ≤ off → off < s.mem.size →
        ∃ t, exec (.store 15 15 0 0 off) s = .next t
          ∧ t.mem.read (BitVec.ofInt 32 off) = some (s.pc + 1) ∧ t.pc = s.pc + 1)

/-- 44_control.md R193: a conditional branch, taken and not taken. -/
def Obligations.ConditionalBranch : Prop :=
  ∀ (cond : CondMask) (off : Int) (s : State),
    (enabled s.flag cond = true → ¬ overflows (s.pc.toInt + off) →
      ∃ t, exec (.add cond 15 0 15 off) s = .next t ∧ t.pc.toInt = s.pc.toInt + off
        ∧ t.flag = signFlag (s.pc.toInt + off) ∧ ∀ r, r ≠ 15 → t.readReg r = s.readReg r)
    ∧ (enabled s.flag cond = false →
        ∃ t, exec (.add cond 15 0 15 off) s = .next t ∧ t.pc = s.pc + 1 ∧ t.flag = s.flag
          ∧ ∀ r, r ≠ 15 → t.readReg r = s.readReg r)

/-- 30_encoding.md R81: each pseudo-instruction's expansion and its effect when enabled and without
V. -/
def Obligations.PseudoInstructions : Prop :=
  (∀ cond off, pseudoJump cond off = .add cond 15 0 15 off)
  ∧ (∀ cond label a, pseudoJumpTo cond label a = .add cond 15 0 15 (label - a))
  ∧ (∀ cond rT rS, pseudoMove cond rT rS = .add cond rT rS 0 0)
  ∧ (∀ cond rT k, pseudoLoadi cond rT k = .add cond rT 0 0 k)
  ∧ (∀ cond rA rB, pseudoCmp cond rA rB = .sub cond 0 rA rB 0)
  ∧ pseudoNop = .add 0 0 0 0 0
  ∧ ∀ (s : State) (cond : CondMask), enabled s.flag cond = true →
    (∀ off, ¬ overflows (s.pc.toInt + off) → ∃ t, exec (pseudoJump cond off) s = .next t
      ∧ t.pc.toInt = s.pc.toInt + off ∧ t.flag = signFlag (s.pc.toInt + off))
    ∧ (∀ label : Word, offsetFits (label.toInt - s.pc.toInt) →
        ∃ t, exec (pseudoJumpTo cond label.toInt s.pc.toInt) s = .next t ∧ t.pc = label
          ∧ t.flag = signFlag label.toInt)
    ∧ (∀ rT rS, ∃ t, exec (pseudoMove cond rT rS) s = .next t
        ∧ RegisterWritten rT (s.readReg rS) s t ∧ t.flag = signFlag (s.readReg rS).toInt)
    ∧ (∀ rT k, offsetFits k → ∃ t, exec (pseudoLoadi cond rT k) s = .next t
        ∧ RegisterWritten rT (BitVec.ofInt 32 k) s t ∧ t.flag = signFlag k)
    ∧ (∀ rA rB, ∃ t, exec (pseudoCmp cond rA rB) s = .next t ∧ OnlyPcAdvanced s t
        ∧ t.flag = signFlag ((s.readReg rA).toInt - (s.readReg rB).toInt))
    ∧ ∃ t, exec pseudoNop s = .next t ∧ Counted s t ∧ SameMemory s t ∧ OnlyPcAdvanced s t
        ∧ t.flag = s.flag ∧ t.halted = s.halted

/-! ### Runs and the host -/

/-- 70_reset_and_hazards.md R231 and 10_state.md R37. -/
def Obligations.StartRunWritesOnly : Prop :=
  ∀ (s : State) (a : Word),
    (s.startRun a).halted = false ∧ (s.startRun a).pc = a ∧ (s.startRun a).runState = .running
    ∧ (∀ r, r ≠ 15 → (s.startRun a).readReg r = s.readReg r)
    ∧ (s.startRun a).flag = s.flag ∧ (s.startRun a).steps = s.steps
    ∧ (s.startRun a).mem = s.mem ∧ (s.startRun a).trace = s.trace

/-- 41_cpu_step.md R147. -/
def Obligations.AbortLeavesTheLastStep : Prop :=
  ∀ s : State, s.Inv → s.runState = .running →
    s.abort = { s with runState := .idle } ∧ s.abort.halted = false

/-- No step of a run is refused (41_cpu_step.md R131, R150). The list of signals is the model's
(notes/assumptions/18.md). -/
def Obligations.RunIsNeverRefused : Prop :=
  ∀ (s : State) (a : Word) (single : Bool) (signals : List HostSignal) (r : Refusal),
    run a single signals s ≠ .refused r

/-- 41_cpu_step.md R130 and R132: the run state and `halted` at each way a run can end; a run whose
signals ran out is still RUNNING, never halted. The list of signals is the model's
(notes/assumptions/18.md). -/
def Obligations.RunEndStates : Prop :=
  ∀ (s t : State) (f : Fault) (a : Word) (single : Bool) (signals : List HostSignal),
    (run a single signals s = .halted t → t.halted = true ∧ t.runState = .halted)
    ∧ (run a single signals s = .aborted t → t.halted = false ∧ t.runState = .idle)
    ∧ (run a single signals s = .unfinished t → t.halted = false ∧ t.runState = .running)
    ∧ (run a single signals s = .faulted f →
        f.left.halted = false ∧ f.left.runState = .faulted { kind := f.kind, info := f.info })

/-- From 41_cpu_step.md R133: waiting at the single-step gate changes nothing, so a single-step run is
the free run under the same signals less the waits. The list of signals is the model's form of the
gate, a DESIGN CHOICE (notes/assumptions/18.md): R133 gives no mechanism. -/
def Obligations.SingleStepGateChangesNothing : Prop :=
  ∀ (s : State) (a : Word) (signals : List HostSignal),
    run a true signals s = run a false (signals.filter (· ≠ .wait)) s

/-- 41_cpu_step.md R132: more fuel never changes how a finished run ended, and continues one that was
not finished. The list of signals as the fuel is the model's (notes/assumptions/18.md). -/
def Obligations.MoreFuelContinuesTheRun : Prop :=
  ∀ (s : State) (single : Bool) (signals more : List HostSignal),
    runLoop single (signals ++ more) s =
      match runLoop single signals s with
      | .unfinished t => runLoop single more t
      | ended => ended

/-- 60_exceptions.md R201: the codes of the five kinds. -/
def Obligations.FaultCodes : Prop :=
  FaultKind.machineFaultV.code = 1 ∧ FaultKind.fetchOutOfRange.code = 2
    ∧ FaultKind.loadOutOfRange.code = 3 ∧ FaultKind.storeOutOfRange.code = 4
    ∧ FaultKind.illegalInstruction.code = 5

/-- 41_cpu_step.md R149: what the host reads at the status port. -/
def Obligations.HostStatusShows : Prop :=
  ∀ (s : State) (r : RegNum),
    s.hostStatus.regs[r] = s.readReg r ∧ s.hostStatus.flag = s.flag
    ∧ s.hostStatus.steps = s.steps ∧ s.hostStatus.halted = s.halted
    ∧ s.hostStatus.runState = s.runState
    ∧ ∀ rep, s.hostStatus.report = some rep ↔ s.runState = .faulted rep

/-- A program comes to run from reset by the loader and the host's `run` (70_reset_and_hazards.md
R231, R233): any encoded instruction so placed is the first the core runs. It rests on the model's
choice of `withFetchWord` (notes/assumptions/5.md) and of the memory's size (1.md). -/
def Obligations.PlacedWordRunsFirst : Prop :=
  ∀ i : Instr, i.WellFormed →
    runsNext (State.reset.withFetchWord 32 (encode i).toNat) (encode i) i
    ∧ (State.reset.withFetchWord 32 (encode i).toNat).pc = 0
    ∧ (State.reset.withFetchWord 32 (encode i).toNat).flag = 15
end

