-- ==== Sys2Proof/Laws/Memory.lean ====
section
/-! SUPPORT. The memory: its canonical form is kept by every operation, and what a read finds after
a write. -/

namespace Sys2Proof.Machine

/-- A key below every listed key reads as an unlisted one. -/
theorem cellsRead_of_below {cells : List MemCell} {k : Nat} (h : ∀ c ∈ cells, k < c.1) :
    cellsRead cells k = Config.fillWord := by
  induction cells with
  | nil => rfl
  | cons c rest ih =>
    have hk : k ≠ c.1 := Nat.ne_of_lt (h c (by simp))
    simp only [cellsRead, hk, if_false]
    exact ih fun d hd => h d (by simp [hd])

theorem cellsRead_cellsCons_same {rest : List MemCell} {k : Nat} (w : Word)
    (h : ∀ c ∈ rest, k < c.1) : cellsRead (cellsCons k w rest) k = w := by
  unfold cellsCons
  split
  · rename_i hw; rw [cellsRead_of_below h, hw]
  · simp [cellsRead]

theorem cellsRead_cellsCons_ne {rest : List MemCell} {k j : Nat} (w : Word) (h : j ≠ k) :
    cellsRead (cellsCons k w rest) j = cellsRead rest j := by
  unfold cellsCons
  split
  · rfl
  · simp [cellsRead, h]

/-- The keys listed in strictly rising order, as `Memory.wf` asks. -/
abbrev Rising (cells : List MemCell) : Prop := cells.Pairwise (fun c d => c.1 < d.1)

theorem cellsRead_cellsWrite_same {cells : List MemCell} (k : Nat) (w : Word) (h : Rising cells) :
    cellsRead (cellsWrite cells k w) k = w := by
  induction cells with
  | nil => exact cellsRead_cellsCons_same w (by simp)
  | cons c rest ih =>
    obtain ⟨hc, hrest⟩ := List.pairwise_cons.mp h
    simp only [cellsWrite]
    split
    · rename_i hlt
      refine cellsRead_cellsCons_same w fun d hd => ?_
      rcases List.mem_cons.mp hd with rfl | hd
      · exact hlt
      · exact Nat.lt_trans hlt (hc d hd)
    · split
      · rename_i heq; subst heq; exact cellsRead_cellsCons_same w hc
      · rename_i hne; simpa [cellsRead, hne] using ih hrest

theorem cellsRead_cellsWrite_ne {cells : List MemCell} {k j : Nat} (w : Word) (h : j ≠ k) :
    cellsRead (cellsWrite cells k w) j = cellsRead cells j := by
  induction cells with
  | nil => exact cellsRead_cellsCons_ne w h
  | cons c rest ih =>
    simp only [cellsWrite]
    split
    · exact cellsRead_cellsCons_ne w h
    · split
      · rename_i heq; subst heq; rw [cellsRead_cellsCons_ne w h]; simp [cellsRead, h]
      · simp only [cellsRead, ih]

/-- Every cell of the written list is the new one, which is then no fill word, or an old one. -/
theorem mem_cellsWrite {cells : List MemCell} {k : Nat} {w : Word} {c : MemCell}
    (h : c ∈ cellsWrite cells k w) : (c = (k, w) ∧ w ≠ Config.fillWord) ∨ c ∈ cells := by
  have cons : ∀ rest : List MemCell, c ∈ cellsCons k w rest →
      (c = (k, w) ∧ w ≠ Config.fillWord) ∨ c ∈ rest := by
    intro rest hc
    unfold cellsCons at hc
    split at hc
    · exact .inr hc
    · rename_i hw
      exact (List.mem_cons.mp hc).imp (fun e => ⟨e, hw⟩) id
  induction cells with
  | nil => exact cons [] h
  | cons d rest ih =>
    simp only [cellsWrite] at h
    split at h
    · exact cons _ h
    · split at h
      · exact (cons _ h).imp id fun hc => by simp [hc]
      · rcases List.mem_cons.mp h with rfl | hc
        · exact .inr (by simp)
        · exact (ih hc).imp id fun hc => by simp [hc]

theorem rising_cellsCons {rest : List MemCell} {k : Nat} (w : Word) (hr : Rising rest)
    (h : ∀ c ∈ rest, k < c.1) : Rising (cellsCons k w rest) := by
  unfold cellsCons
  split
  · exact hr
  · exact List.pairwise_cons.mpr ⟨h, hr⟩

theorem rising_cellsWrite {cells : List MemCell} (k : Nat) (w : Word) (h : Rising cells) :
    Rising (cellsWrite cells k w) := by
  induction cells with
  | nil => exact rising_cellsCons w .nil (by simp)
  | cons c rest ih =>
    obtain ⟨hc, hrest⟩ := List.pairwise_cons.mp h
    simp only [cellsWrite]
    split
    · rename_i hlt
      refine rising_cellsCons w h fun d hd => ?_
      rcases List.mem_cons.mp hd with rfl | hd
      · exact hlt
      · exact Nat.lt_trans hlt (hc d hd)
    · split
      · rename_i heq; subst heq; exact rising_cellsCons w hrest hc
      · rename_i hnlt hne
        refine List.pairwise_cons.mpr ⟨fun d hd => ?_, ih hrest⟩
        rcases mem_cellsWrite hd with ⟨rfl, -⟩ | hd
        · show c.1 < k; omega
        · exact hc d hd

/-- What a write answers, said once: the address is valid, the size stays, the cells are the
written ones. -/
theorem Memory.write_cases {m m' : Memory} {a v : Word} (h : m.write a v = some m') :
    m.valid a ∧ m' = { m with cells := cellsWrite m.cells a.toInt.toNat v } := by
  unfold Memory.write at h
  split at h
  · rename_i hv; exact ⟨hv, (Option.some.inj h).symm⟩
  · cases h

theorem Memory.write_eq_none {m : Memory} {a v : Word} : m.write a v = none ↔ ¬ m.valid a := by
  unfold Memory.write; split <;> simp_all

theorem Memory.read_eq_none {m : Memory} {a : Word} : m.read a = none ↔ ¬ m.valid a := by
  unfold Memory.read; split <;> simp_all

theorem Memory.write_size {m m' : Memory} {a v : Word} (h : m.write a v = some m') :
    m'.size = m.size := by rw [(Memory.write_cases h).2]

/-- Every write keeps the canonical form. -/
theorem Memory.write_wf {m m' : Memory} {a v : Word} (h : m.write a v = some m') (hw : m.wf) :
    m'.wf := by
  obtain ⟨hv, rfl⟩ := Memory.write_cases h
  obtain ⟨hs, hr, hc⟩ := hw
  refine ⟨hs, rising_cellsWrite _ v hr, fun c hm => ?_⟩
  rcases mem_cellsWrite hm with ⟨rfl, hne⟩ | hm
  · exact ⟨by have := hv.1; have := hv.2; show a.toInt.toNat < m.size; omega, hne⟩
  · exact hc c hm

theorem Memory.read_write_same {m m' : Memory} {a v : Word} (h : m.write a v = some m')
    (hw : m.wf) : m'.read a = some v := by
  obtain ⟨hv, rfl⟩ := Memory.write_cases h
  unfold Memory.read
  rw [if_pos hv, cellsRead_cellsWrite_same _ v hw.2.1]

theorem Memory.read_write_ne {m m' : Memory} {a b v : Word} (h : m.write a v = some m')
    (hne : b ≠ a) : m'.read b = m.read b := by
  obtain ⟨hv, rfl⟩ := Memory.write_cases h
  unfold Memory.read
  by_cases hb : m.valid b
  · have hk : b.toInt.toNat ≠ a.toInt.toNat := fun he => hne <| BitVec.eq_of_toInt_eq <| by
      have := hb.1; have := hv.1; omega
    rw [if_pos hb, if_pos hb, cellsRead_cellsWrite_ne v hk]
  · rw [if_neg hb, if_neg hb]

theorem reset_mem_wf : State.reset.mem.wf := by decide

end Sys2Proof.Machine
end

