-- ==== Sys2Proof/Laws/State.lean ====
section
/-! SUPPORT. One lemma for each field under each update of the state. -/

namespace Sys2Proof.Machine

section
variable (s : State) (e : StepEvent) (f : AluFlag) (i j : RegNum) (v : Word) (k : FaultKind)

/-! Writing a register -/

@[simp] theorem writeReg_flag : (s.writeReg i v).flag = s.flag := by
  unfold State.writeReg; split <;> rfl
@[simp] theorem writeReg_halted : (s.writeReg i v).halted = s.halted := by
  unfold State.writeReg; split <;> rfl
@[simp] theorem writeReg_steps : (s.writeReg i v).steps = s.steps := by
  unfold State.writeReg; split <;> rfl
@[simp] theorem writeReg_runState : (s.writeReg i v).runState = s.runState := by
  unfold State.writeReg; split <;> rfl
@[simp] theorem writeReg_mem : (s.writeReg i v).mem = s.mem := by
  unfold State.writeReg; split <;> rfl
@[simp] theorem writeReg_trace : (s.writeReg i v).trace = s.trace := by
  unfold State.writeReg; split <;> rfl
@[simp] theorem writeReg_cell_zero : (s.writeReg i v).regs[0] = s.regs[0] := by
  unfold State.writeReg
  split
  · rfl
  · rename_i h
    exact Vector.getElem_set_ne i.isLt (by omega) (fun h' => h (Fin.ext h'))

@[simp] theorem readReg_zero : s.readReg 0 = 0 := rfl

@[simp] theorem writeReg_zero : s.writeReg 0 v = s := rfl

theorem readReg_writeReg_same (h : i ≠ 0) : (s.writeReg i v).readReg i = v := by
  simp [State.writeReg, State.readReg, h]

theorem readReg_writeReg_ne (h : j ≠ i) : (s.writeReg i v).readReg j = s.readReg j := by
  unfold State.writeReg State.readReg
  split
  · rfl
  · split
    · rfl
    · exact Vector.getElem_set_ne i.isLt j.isLt (fun h' => h (Fin.ext h'.symm))

/-- `readReg` sees only the register cells. -/
theorem readReg_congr (t : State) (h : t.regs = s.regs) : t.readReg i = s.readReg i := by
  simp [State.readReg, h]

/-! The observer's record -/

@[simp] theorem emit_regs : (s.emit e).regs = s.regs := rfl
@[simp] theorem emit_readReg : (s.emit e).readReg i = s.readReg i := rfl
@[simp] theorem emit_pc : (s.emit e).pc = s.pc := rfl
@[simp] theorem emit_flag : (s.emit e).flag = s.flag := rfl
@[simp] theorem emit_halted : (s.emit e).halted = s.halted := rfl
@[simp] theorem emit_steps : (s.emit e).steps = s.steps := rfl
@[simp] theorem emit_runState : (s.emit e).runState = s.runState := rfl
@[simp] theorem emit_mem : (s.emit e).mem = s.mem := rfl
@[simp] theorem emit_trace : (s.emit e).trace = e :: s.trace := rfl

/-! The flag register -/

@[simp] theorem setFlag_regs : (s.setFlag f).regs = s.regs := rfl
@[simp] theorem setFlag_readReg : (s.setFlag f).readReg i = s.readReg i := rfl
@[simp] theorem setFlag_pc : (s.setFlag f).pc = s.pc := rfl
@[simp] theorem setFlag_flag : (s.setFlag f).flag = f.bits := rfl
@[simp] theorem setFlag_halted :
    (s.setFlag f).halted = if f = .overflow then true else s.halted := rfl
@[simp] theorem setFlag_steps : (s.setFlag f).steps = s.steps := rfl
@[simp] theorem setFlag_runState : (s.setFlag f).runState = s.runState := rfl
@[simp] theorem setFlag_mem : (s.setFlag f).mem = s.mem := rfl
@[simp] theorem setFlag_trace : (s.setFlag f).trace = s.trace := rfl

/-! The pc advance -/

@[simp] theorem advance_flag : s.advance.flag = s.flag := writeReg_flag s 15 (wrapW (s.pc.toInt + 1))
@[simp] theorem advance_halted : s.advance.halted = s.halted := writeReg_halted s 15 (wrapW (s.pc.toInt + 1))
@[simp] theorem advance_steps : s.advance.steps = s.steps + 1 := rfl
@[simp] theorem advance_runState : s.advance.runState = s.runState := writeReg_runState s 15 (wrapW (s.pc.toInt + 1))
@[simp] theorem advance_mem : s.advance.mem = s.mem := writeReg_mem s 15 (wrapW (s.pc.toInt + 1))
@[simp] theorem advance_trace : s.advance.trace = s.trace := writeReg_trace s 15 (wrapW (s.pc.toInt + 1))
@[simp] theorem advance_cell_zero : s.advance.regs[0] = s.regs[0] := writeReg_cell_zero s 15 (wrapW (s.pc.toInt + 1))

/-- The wrapped increment is the bit vector's own. -/
theorem wrapW_toInt_add_one (w : Word) : wrapW (w.toInt + 1) = w + 1 := by
  have h : wrapW (w.toInt + (1 : Word).toInt) = w + 1 := by
    rw [wrapW, BitVec.ofInt_add, BitVec.ofInt_toInt, BitVec.ofInt_toInt]
  exact h

@[simp] theorem advance_pc : s.advance.pc = s.pc + 1 :=
  (readReg_writeReg_same s 15 _ (by decide)).trans (wrapW_toInt_add_one _)

theorem advance_readReg_ne (h : i ≠ 15) : s.advance.readReg i = s.readReg i :=
  readReg_writeReg_ne s 15 i _ h

/-! The commit of HALT and the end of a step -/

@[simp] theorem halt_regs : s.halt.regs = s.regs := rfl
@[simp] theorem halt_readReg : s.halt.readReg i = s.readReg i := rfl
@[simp] theorem halt_pc : s.halt.pc = s.pc := rfl
@[simp] theorem halt_flag : s.halt.flag = s.flag := rfl
@[simp] theorem halt_halted : s.halt.halted = true := rfl
@[simp] theorem halt_steps : s.halt.steps = s.steps := rfl
@[simp] theorem halt_runState : s.halt.runState = s.runState := rfl
@[simp] theorem halt_mem : s.halt.mem = s.mem := rfl
@[simp] theorem halt_trace : s.halt.trace = s.trace := rfl

@[simp] theorem settle_regs : s.settle.regs = s.regs := by unfold State.settle; split <;> rfl
@[simp] theorem settle_readReg : s.settle.readReg i = s.readReg i := by
  unfold State.settle; split <;> rfl
@[simp] theorem settle_pc : s.settle.pc = s.pc := settle_readReg s 15
@[simp] theorem settle_flag : s.settle.flag = s.flag := by unfold State.settle; split <;> rfl
@[simp] theorem settle_halted : s.settle.halted = s.halted := by unfold State.settle; split <;> rfl
@[simp] theorem settle_steps : s.settle.steps = s.steps := by unfold State.settle; split <;> rfl
@[simp] theorem settle_runState :
    s.settle.runState = if s.halted then .halted else s.runState := by
  unfold State.settle; split <;> rfl
@[simp] theorem settle_mem : s.settle.mem = s.mem := by unfold State.settle; split <;> rfl
@[simp] theorem settle_trace : s.settle.trace = s.trace := by unfold State.settle; split <;> rfl

/-! The end of a run in FAULTED -/

@[simp] theorem fail_regs : (s.fail k v).regs = s.regs := rfl
@[simp] theorem fail_readReg : (s.fail k v).readReg i = s.readReg i := rfl
@[simp] theorem fail_pc : (s.fail k v).pc = s.pc := rfl
@[simp] theorem fail_flag : (s.fail k v).flag = s.flag := rfl
@[simp] theorem fail_halted : (s.fail k v).halted = s.halted := rfl
@[simp] theorem fail_steps : (s.fail k v).steps = s.steps := rfl
@[simp] theorem fail_runState : (s.fail k v).runState = .faulted { kind := k, info := v } := rfl
@[simp] theorem fail_mem : (s.fail k v).mem = s.mem := rfl
@[simp] theorem fail_trace : (s.fail k v).trace = s.trace := rfl

/-! The host's start of a run -/

@[simp] theorem startRun_flag : (s.startRun v).flag = s.flag := writeReg_flag s 15 v
@[simp] theorem startRun_halted : (s.startRun v).halted = false := rfl
@[simp] theorem startRun_steps : (s.startRun v).steps = s.steps := writeReg_steps s 15 v
@[simp] theorem startRun_runState : (s.startRun v).runState = .running := rfl
@[simp] theorem startRun_mem : (s.startRun v).mem = s.mem := writeReg_mem s 15 v
@[simp] theorem startRun_trace : (s.startRun v).trace = s.trace := writeReg_trace s 15 v
@[simp] theorem startRun_cell_zero : (s.startRun v).regs[0] = s.regs[0] := writeReg_cell_zero s 15 v
@[simp] theorem startRun_pc : (s.startRun v).pc = v := readReg_writeReg_same s 15 v (by decide)

theorem startRun_readReg_ne (h : i ≠ 15) : (s.startRun v).readReg i = s.readReg i :=
  readReg_writeReg_ne s 15 i v h

/-! A state with another memory -/

variable (m : Memory)

@[simp] theorem withMem_readReg : ({ s with mem := m } : State).readReg i = s.readReg i := rfl
@[simp] theorem withMem_pc : ({ s with mem := m } : State).pc = s.pc := rfl

end

end Sys2Proof.Machine
end

