-- ==== Sys2Proof/Laws/Exec.lean ====
section
/-! SUPPORT. What a commit, a meaning, a cycle and a step can do, each said once. -/

namespace Sys2Proof.Machine

/-! ### The parts every meaning shares -/

/-- Everything the shared parts 4 to 7 of a step can answer (41_cpu_step.md R144). -/
theorem conduct_cases (cond : CondMask) (alu : Word × AluFlag) (commit : Word → State → Answer)
    (s : State) :
    (enabled s.flag cond = false ∧ conduct cond alu commit s = .next s.advance)
      ∨ (enabled s.flag cond = true ∧ alu.2 = .overflow
          ∧ conduct cond alu commit s = .next (s.setFlag alu.2).advance)
      ∨ (enabled s.flag cond = true ∧ alu.2 ≠ .overflow
          ∧ conduct cond alu commit s = commit alu.1 (s.setFlag alu.2).advance) := by
  unfold conduct
  by_cases he : enabled s.flag cond = true
  · by_cases hv : alu.2 = .overflow
    · exact .inr (.inl ⟨he, hv, by rw [if_pos he, if_pos hv]⟩)
    · exact .inr (.inr ⟨he, hv, by rw [if_pos he, if_neg hv]⟩)
  · exact .inl ⟨by simpa using he, by rw [if_neg he]⟩

/-- The commit of an instruction (41_cpu_step.md R141). -/
def commitOf (i : Instr) : Word → State → Answer :=
  match i.op with
  | .halt => commitHalt
  | .load => commitLoad i.rT
  | .store => commitStore i.rT
  | .add | .sub | .mul | .div => commitResult i.rT

/-- Every meaning is `conduct` over its ALU operation and its commit. -/
theorem exec_eq_conduct (i : Instr) (s : State) :
    exec i s = conduct i.cond (aluOf i s) (commitOf i) s := by cases i <;> rfl

/-- Parts 5 and 6 of a step of an enabled instruction. -/
def issued (i : Instr) (s : State) : State := (s.setFlag (aluOf i s).2).advance

theorem exec_of_disabled {i : Instr} {s : State} (h : ¬ enabledIn i s) :
    exec i s = .next s.advance := by
  rw [exec_eq_conduct, conduct, if_neg h]

theorem exec_of_overflow {i : Instr} {s : State} (h : overflowsIn i s) :
    exec i s = .next (issued i s) := by
  rw [exec_eq_conduct, conduct, if_pos h.1, if_pos h.2, issued]

theorem exec_of_commit {i : Instr} {s : State} (h : commitsIn i s) :
    exec i s = commitOf i (aluOf i s).1 (issued i s) := by
  rw [exec_eq_conduct, conduct, if_pos h.1, if_neg h.2, issued]

/-- Everything a meaning can do, by what the enable test and the ALU say. -/
theorem exec_cases (i : Instr) (s : State) :
    (¬ enabledIn i s ∧ exec i s = .next s.advance)
      ∨ (overflowsIn i s ∧ exec i s = .next (issued i s))
      ∨ (commitsIn i s ∧ exec i s = commitOf i (aluOf i s).1 (issued i s)) := by
  by_cases he : enabledIn i s
  · by_cases hv : (aluOf i s).2 = .overflow
    · exact .inr (.inl ⟨⟨he, hv⟩, exec_of_overflow ⟨he, hv⟩⟩)
    · exact .inr (.inr ⟨⟨he, hv⟩, exec_of_commit ⟨he, hv⟩⟩)
  · exact .inl ⟨he, exec_of_disabled he⟩

@[simp] theorem issued_flag (i : Instr) (s : State) :
    (issued i s).flag = (aluOf i s).2.bits := by simp [issued]
@[simp] theorem issued_halted (i : Instr) (s : State) :
    (issued i s).halted = if (aluOf i s).2 = .overflow then true else s.halted := by simp [issued]
@[simp] theorem issued_steps (i : Instr) (s : State) : (issued i s).steps = s.steps + 1 := rfl
@[simp] theorem issued_runState (i : Instr) (s : State) :
    (issued i s).runState = s.runState := by simp [issued]
@[simp] theorem issued_mem (i : Instr) (s : State) : (issued i s).mem = s.mem := by simp [issued]
@[simp] theorem issued_trace (i : Instr) (s : State) :
    (issued i s).trace = s.trace := by simp [issued]
@[simp] theorem issued_pc (i : Instr) (s : State) : (issued i s).pc = s.pc + 1 := by simp [issued]
@[simp] theorem issued_cell_zero (i : Instr) (s : State) :
    (issued i s).regs[0] = s.regs[0] := by simp [issued]
theorem issued_readReg_ne (i : Instr) (s : State) {r : RegNum} (h : r ≠ 15) :
    (issued i s).readReg r = s.readReg r := by simp [issued, advance_readReg_ne _ _ h]

/-! ### What a commit can do -/

/-- Everything the commit of `i` can do in state `u`, the ALU's result being `r`. -/
theorem commitOf_cases (i : Instr) (r : Word) (u : State) :
    (i.op ≠ .load ∧ writesRegister i ∧ commitOf i r u = .next (u.writeReg i.rT r))
      ∨ (i.op = .load ∧ ∃ v, u.mem.read r = some v ∧ commitOf i r u = .next (u.writeReg i.rT v))
      ∨ (i.op = .load ∧ u.mem.read r = none
          ∧ commitOf i r u = .fault (.loadOutOfRange r (u.fail .loadOutOfRange r)))
      ∨ (i.op = .store ∧ ∃ m, u.mem.write r (u.readReg i.rT) = some m
          ∧ commitOf i r u = .next { u with mem := m })
      ∨ (i.op = .store ∧ u.mem.write r (u.readReg i.rT) = none
          ∧ commitOf i r u = .fault (.storeOutOfRange r (u.fail .storeOutOfRange r)))
      ∨ (i.op = .halt ∧ commitOf i r u = .next u.halt) := by
  cases i <;> simp only [Instr.op, Instr.rT, commitOf, commitResult, commitHalt, commitLoad,
    commitStore, raiseLoad, raiseStore, writesRegister, ne_eq, reduceCtorEq, not_false_eq_true,
    not_true_eq_false, and_self, true_and, false_and, and_true, and_false, or_false, or_true, false_or]
  case load c t a b o => cases u.mem.read r <;> simp
  case store c t a b o => cases u.mem.write r (u.readReg t) <;> simp

/-! ### What a meaning answers -/

/-- `t` is what an enabled instruction without V leaves in state `s`: parts 5 and 6, and its
commit. -/
def Committed (i : Instr) (s t : State) : Prop :=
  (i.op ≠ .load ∧ writesRegister i ∧ t = (issued i s).writeReg i.rT (aluOf i s).1)
    ∨ (i.op = .load ∧ ∃ v, s.mem.read (aluOf i s).1 = some v ∧ t = (issued i s).writeReg i.rT v)
    ∨ (i.op = .store ∧ ∃ m, s.mem.write (aluOf i s).1 ((issued i s).readReg i.rT) = some m
        ∧ t = { issued i s with mem := m })
    ∨ (i.op = .halt ∧ t = (issued i s).halt)

/-- The data access of `i` in `s` is out of range, and `f` is the fault it raises. -/
def BadAccess (i : Instr) (s : State) (f : Fault) : Prop :=
  ¬ s.mem.valid (aluOf i s).1
    ∧ ((i.op = .load ∧ f = .loadOutOfRange (aluOf i s).1
          ((issued i s).fail .loadOutOfRange (aluOf i s).1))
      ∨ (i.op = .store ∧ f = .storeOutOfRange (aluOf i s).1
          ((issued i s).fail .storeOutOfRange (aluOf i s).1)))

/-- Everything a meaning can answer. -/
theorem exec_answers (i : Instr) (s : State) :
    (¬ enabledIn i s ∧ exec i s = .next s.advance)
      ∨ (overflowsIn i s ∧ exec i s = .next (issued i s))
      ∨ (commitsIn i s ∧ ∃ t, Committed i s t ∧ exec i s = .next t)
      ∨ (commitsIn i s ∧ ∃ f, BadAccess i s f ∧ exec i s = .fault f) := by
  rcases exec_cases i s with h | h | ⟨h, e⟩
  · exact .inl h
  · exact .inr (.inl h)
  · rw [e]
    rcases commitOf_cases i (aluOf i s).1 (issued i s) with
      ⟨h1, h2, c⟩ | ⟨h1, v, h2, c⟩ | ⟨h1, h2, c⟩ | ⟨h1, m, h2, c⟩ | ⟨h1, h2, c⟩ | ⟨h1, c⟩
    · exact .inr (.inr (.inl ⟨h, _, .inl ⟨h1, h2, rfl⟩, c⟩))
    · exact .inr (.inr (.inl ⟨h, _, .inr (.inl ⟨h1, v, by simpa using h2, rfl⟩), c⟩))
    · have hv := Memory.read_eq_none.mp h2
      exact .inr (.inr (.inr ⟨h, _, ⟨by simpa using hv, .inl ⟨h1, rfl⟩⟩, c⟩))
    · exact .inr (.inr (.inl ⟨h, _, .inr (.inr (.inl ⟨h1, m, by simpa using h2, rfl⟩)), c⟩))
    · have hv := Memory.write_eq_none.mp h2
      exact .inr (.inr (.inr ⟨h, _, ⟨by simpa using hv, .inr ⟨h1, rfl⟩⟩, c⟩))
    · exact .inr (.inr (.inl ⟨h, _, .inr (.inr (.inr ⟨h1, rfl⟩)), c⟩))

/-- A data access that committed was in range. -/
theorem Committed.valid {i : Instr} {s t : State} (h : Committed i s t)
    (hop : i.op = .load ∨ i.op = .store) : s.mem.valid (aluOf i s).1 := by
  rcases h with ⟨h1, h2, -⟩ | ⟨-, v, h2, -⟩ | ⟨-, m, h2, -⟩ | ⟨h1, -⟩
  · exact absurd hop (by simp [h1, h2.1])
  · exact not_not.mp fun hv => by simp [Memory.read_eq_none.mpr hv] at h2
  · exact (Memory.write_cases h2).1
  · exact absurd hop (by simp [h1])

section
variable {i : Instr} {s t : State} (h : Committed i s t)
include h

theorem Committed.flag : t.flag = (aluOf i s).2.bits := by
  rcases h with ⟨-, -, rfl⟩ | ⟨-, v, -, rfl⟩ | ⟨-, m, -, rfl⟩ | ⟨-, rfl⟩ <;> simp

theorem Committed.steps : t.steps = s.steps + 1 := by
  rcases h with ⟨-, -, rfl⟩ | ⟨-, v, -, rfl⟩ | ⟨-, m, -, rfl⟩ | ⟨-, rfl⟩ <;> simp

theorem Committed.runState : t.runState = s.runState := by
  rcases h with ⟨-, -, rfl⟩ | ⟨-, v, -, rfl⟩ | ⟨-, m, -, rfl⟩ | ⟨-, rfl⟩ <;> simp

theorem Committed.trace : t.trace = s.trace := by
  rcases h with ⟨-, -, rfl⟩ | ⟨-, v, -, rfl⟩ | ⟨-, m, -, rfl⟩ | ⟨-, rfl⟩ <;> simp

theorem Committed.cell_zero : t.regs[0] = s.regs[0] := by
  rcases h with ⟨-, -, rfl⟩ | ⟨-, v, -, rfl⟩ | ⟨-, m, -, rfl⟩ | ⟨-, rfl⟩
  · simp
  · simp
  · exact issued_cell_zero i s
  · exact issued_cell_zero i s

end

/-! ### The ALU -/

@[simp] theorem derive_result (raw : Int) : (derive raw).1 = wrapW raw := rfl
@[simp] theorem derive_flag (raw : Int) : (derive raw).2 = flagOf raw := rfl

theorem flagOf_eq_overflow {raw : Int} : flagOf raw = .overflow ↔ ¬ fitsW raw := by
  unfold flagOf; split <;> [simp_all; (split <;> [simp_all; (split <;> simp_all)])]

/-- The pattern of the derived flag is the one the spec's words give. -/
theorem flagOf_bits (raw : Int) : (flagOf raw).bits = signFlag raw := by
  unfold flagOf signFlag
  by_cases h : fitsW raw
  · have h' : ¬ overflows raw := by omega
    rw [if_neg (not_not.mpr h), if_neg h']
    split <;> [rfl; (split <;> rfl)]
  · have h' : overflows raw := by omega
    rw [if_pos h, if_pos h']; rfl

theorem bits_legal (f : AluFlag) : legalFlag f.bits := by cases f <;> decide

theorem bits_eq_overflow {f : AluFlag} : f.bits = 8 ↔ f = .overflow := by cases f <;> decide

/-! ### Cycle and step -/

theorem step_of_running {s : State} (h : s.runState = .running) : step s = cycle s := by
  unfold step; rw [h]

/-- Everything a step can do. -/
theorem step_cases (s : State) :
    (s.runState ≠ .running ∧ step s = .refused (.notRunning s.runState))
      ∨ (s.runState = .running ∧ s.mem.read s.pc = none
          ∧ step s = .fault (.fetchOutOfRange s.pc (s.fail .fetchOutOfRange s.pc)))
      ∨ (s.runState = .running ∧ ∃ w e, s.mem.read s.pc = some w ∧ decode w = .error e
          ∧ step s = .fault (.illegalInstruction w (s.fail .illegalInstruction w)))
      ∨ ∃ w i, runsNext s w i
          ∧ step s = settleAnswer (exec i (s.emit { pc := s.pc, word := w, instr := i })) := by
  cases hr : s.runState with
  | running =>
    rw [step_of_running hr]
    unfold cycle State.fetch
    cases hf : s.mem.read s.pc with
    | none => exact .inr (.inl ⟨rfl, rfl, rfl⟩)
    | some w =>
      cases hd : decode w with
      | error e => exact .inr (.inr (.inl ⟨rfl, w, e, rfl, hd, by simp only [hd]; rfl⟩))
      | ok i => exact .inr (.inr (.inr ⟨w, i, ⟨hr, hf, hd⟩, by simp only [hd]⟩))
  | idle => exact .inl ⟨by simp, by unfold step; rw [hr]⟩
  | halted => exact .inl ⟨by simp, by unfold step; rw [hr]⟩
  | faulted r => exact .inl ⟨by simp, by unfold step; rw [hr]⟩

/-- The step of a running core whose word decodes. -/
theorem step_of_runsNext {s : State} {w : Word} {i : Instr} (h : runsNext s w i) :
    step s = settleAnswer (exec i (s.emit { pc := s.pc, word := w, instr := i })) := by
  obtain ⟨hr, hf, hd⟩ := h
  rw [step_of_running hr]
  unfold cycle State.fetch
  simp only [hf, hd]

/-- What the end of a step makes of a meaning's answer. -/
theorem settleAnswer_next {a : Answer} {t : State} (h : settleAnswer a = .next t) :
    ∃ u, a = .next u ∧ t = u.settle := by
  cases a with
  | next u => exact ⟨u, rfl, (Host.Outcome.next.inj h).symm⟩
  | fault f => cases h
  | refused r => cases h

theorem settleAnswer_fault {a : Answer} {f : Fault} (h : settleAnswer a = .fault f) :
    a = .fault f := by
  cases a with
  | next u => cases h
  | fault g => exact h
  | refused r => cases h

/-- The registers after the pc advance, of a disabled and of an enabled instruction. -/
theorem advance_onlyPcAdvanced (s : State) : OnlyPcAdvanced s s.advance :=
  ⟨advance_pc s, fun r h => advance_readReg_ne s r h⟩

theorem issued_onlyPcAdvanced (i : Instr) (s : State) : OnlyPcAdvanced s (issued i s) :=
  ⟨issued_pc i s, fun _ h => issued_readReg_ne i s h⟩

/-- A running state that meets the invariant is not halted. -/
theorem State.Inv.not_halted {s : State} (h : s.Inv) (hr : s.runState = .running) :
    s.halted = false := by
  have := h.2.2.1
  rw [hr] at this
  simpa using this

/-! ### The host's acts -/

/-- Everything an abort can do. -/
theorem abort_cases (s : State) :
    (s.runState = .running ∧ s.abort = { s with runState := .idle })
      ∨ (s.runState ≠ .running ∧ s.abort = s) := by
  unfold State.abort
  cases h : s.runState <;> simp

/-- Everything the placing of a word can do. -/
theorem placeWord_cases (s : State) (a w : Word) :
    (∃ m, s.mem.write a w = some m ∧ s.placeWord a w = { s with mem := m })
      ∨ (¬ s.mem.valid a ∧ s.placeWord a w = s) := by
  unfold State.placeWord
  cases h : s.mem.write a w with
  | some m => exact .inl ⟨m, rfl, rfl⟩
  | none => exact .inr ⟨Memory.write_eq_none.mp h, rfl⟩

/-- The event of a step changes nothing a meaning reads. -/
@[simp] theorem aluOf_emit (i : Instr) (s : State) (e : StepEvent) :
    aluOf i (s.emit e) = aluOf i s := rfl

end Sys2Proof.Machine
end

