-- ==== Sys2Proof/Laws/PerInstr.lean ====
section
/-! SUPPORT. Facts about every instruction as syntax, one lemma for each constructor, and the fields
of a word as numbers. -/

namespace Sys2Proof.Laws

/-- A field of a word, as a number. -/
theorem fieldAt_toNat (w : Word) (lo width : Nat) :
    (fieldAt w lo width).toNat = w.toNat / 2 ^ lo % 2 ^ width := by
  rw [fieldAt, BitVec.extractLsb'_toNat, Nat.shiftRight_eq_div_pow]

/-- Adding a field below the lowest set bit is the same as setting its bits. -/
theorem shift_or_eq_add {a b k : Nat} (h : b < 2 ^ k) : a <<< k ||| b = a * 2 ^ k + b := by
  rw [← Nat.shiftLeft_add_eq_or_of_lt h, Nat.shiftLeft_eq]

/-- The number an instruction encodes to, with its fields as digits. -/
theorem encode_toNat (i : Instr) :
    (encode i).toNat = (opcodeNumber i.op).toNat * 67108864 + i.cond.toNat * 4194304
      + i.rT.val * 262144 + i.rS1.val * 16384 + i.rS2.val * 1024 + (i.off % 1024).toNat := by
  have hop := (opcodeNumber i.op).isLt
  have hc := i.cond.isLt
  have ht := i.rT.isLt
  have ha := i.rS1.isLt
  have hb := i.rS2.isLt
  have ho : (i.off % 1024).toNat < 1024 := by omega
  simp only [encode, BitVec.toNat_ofNat, Nat.or_assoc]
  rw [shift_or_eq_add (k := 10) (by omega), shift_or_eq_add (k := 14) (by omega),
    shift_or_eq_add (k := 18) (by omega), shift_or_eq_add (k := 22) (by omega),
    shift_or_eq_add (k := 26) (by omega)]
  omega

/-- The word of any instruction has bit 31 zero and its opcode's number in bits 30:26
(30_encoding.md R71, R75, R79). -/
def EncodeSelects.Statement (i : Instr) : Prop :=
  fieldAt (encode i) 31 1 = 0 ∧ fieldAt (encode i) 26 5 = opcodeNumber i.op

theorem encode_selects (i : Instr) : EncodeSelects.Statement i := by
  have hop := (opcodeNumber i.op).isLt
  have hc := i.cond.isLt
  have h : (encode i).toNat < 2 ^ 31 ∧ (encode i).toNat / 2 ^ 26 % 2 ^ 5
      = (opcodeNumber i.op).toNat := by
    rw [encode_toNat]; omega
  exact ⟨BitVec.eq_of_toNat_eq (by rw [fieldAt_toNat]; show _ = 0; omega),
    BitVec.eq_of_toNat_eq (by rw [fieldAt_toNat]; exact h.2)⟩

theorem EncodeSelects.halt (c : CondMask) (t a b : RegNum) (o : Int) :
    EncodeSelects.Statement (.halt c t a b o) := encode_selects _
theorem EncodeSelects.load (c : CondMask) (t a b : RegNum) (o : Int) :
    EncodeSelects.Statement (.load c t a b o) := encode_selects _
theorem EncodeSelects.store (c : CondMask) (t a b : RegNum) (o : Int) :
    EncodeSelects.Statement (.store c t a b o) := encode_selects _
theorem EncodeSelects.add (c : CondMask) (t a b : RegNum) (o : Int) :
    EncodeSelects.Statement (.add c t a b o) := encode_selects _
theorem EncodeSelects.sub (c : CondMask) (t a b : RegNum) (o : Int) :
    EncodeSelects.Statement (.sub c t a b o) := encode_selects _
theorem EncodeSelects.mul (c : CondMask) (t a b : RegNum) (o : Int) :
    EncodeSelects.Statement (.mul c t a b o) := encode_selects _
theorem EncodeSelects.div (c : CondMask) (t a b : RegNum) (o : Int) :
    EncodeSelects.Statement (.div c t a b o) := encode_selects _

end Sys2Proof.Laws
end

