-- ==== Sys2Proof/Tests/Slice0.lean ====
section
/-! SUPPORT. The model's own tests. Expected results are the spec's: 30_encoding.md's worked
encodings, the tables of 95_test_vectors.md, the examples of the instruction rules; the comment
before each group names its source. The witnesses at the end meet the hypotheses of the
statements. -/

namespace Sys2Proof.Machine

/-! ### Well-formedness: 30_encoding.md R72 -/

theorem test_offset_above_the_field_is_refused : ¬ (Instr.add 15 1 0 0 512).WellFormed := by decide
theorem test_offset_below_the_field_is_refused : ¬ (Instr.add 15 1 0 0 (-513)).WellFormed := by
  decide
theorem test_offset_bounds_are_accepted :
    (Instr.add 15 1 0 0 511).WellFormed ∧ (Instr.add 15 1 0 0 (-512)).WellFormed := by decide

/-! ### Decoding and encoding: words written out from the format of 30_encoding.md R71, in the order
rsv, op, cond, rT, rS1, rS2, off -/

theorem test_decode_halt :
    decode 0b0_00000_1111_0000_0000_0000_0000000000#32 = .ok (.halt 15 0 0 0 0) := by decide
theorem test_decode_load :
    decode 0b0_00001_0101_0010_0011_0100_0000010100#32 = .ok (.load 5 2 3 4 20) := by decide
theorem test_decode_store :
    decode 0b0_00010_1000_1111_0001_1000_1000000000#32 = .ok (.store 8 15 1 8 (-512)) := by decide
theorem test_decode_add :
    decode 0b0_00011_1111_1111_0000_1111_1111111101#32 = .ok (.add 15 15 0 15 (-3)) := by decide
theorem test_decode_sub :
    decode 0b0_00100_0011_0000_0001_0010_0111111111#32 = .ok (.sub 3 0 1 2 511) := by decide
theorem test_decode_mul :
    decode 0b0_00101_0110_0100_0001_0000_1111111100#32 = .ok (.mul 6 4 1 0 (-4)) := by decide
theorem test_decode_div :
    decode 0b0_00110_1111_0011_0001_0000_0000000000#32 = .ok (.div 15 3 1 0 0) := by decide
/-- 95_test_vectors.md 2.3 -/
theorem test_decode_illegal :
    decode 0x1C000000#32 = .error (.unknownOpcode 7)
      ∧ decode 0x7C000000#32 = .error (.unknownOpcode 31)
      ∧ decode 0x80000000#32 = .error .reservedBit
      ∧ decode 0xFFFFFFFF#32 = .error .reservedBit := by decide
/-- 95_test_vectors.md 2.3 -/
theorem test_decode_fields_all_ones :
    decode 0x0FFFFFFF#32 = .ok (.add 15 15 15 15 (-1))
      ∧ decode 0x1BFFFFFF#32 = .ok (.div 15 15 15 15 (-1))
      ∧ decode 0x000001FF#32 = .ok (.halt 0 0 0 0 511)
      ∧ decode 0x00000200#32 = .ok (.halt 0 0 0 0 (-512)) := by decide
/-- The worked encodings of 30_encoding.md R79. -/
theorem test_encode_worked_examples :
    encode (.add 15 1 0 0 5) = 0x0FC40005 ∧ encode (.halt 15 0 0 0 0) = 0x03C00000
      ∧ encode pseudoNop = 0x0C000000 ∧ encode (pseudoJump 15 (-3)) = 0x0FFC3FFD
      ∧ encode (pseudoCmp 15 1 2) = 0x13C04800 ∧ encode (.load 15 2 0 0 20) = 0x07C80014
      ∧ encode (.store 15 2 0 0 10) = 0x0BC8000A ∧ encode (.div 15 3 1 0 0) = 0x1BCC4000
      ∧ encode (.add 15 1 0 0 (-512)) = 0x0FC40200 := by decide
theorem test_decodeTableWord :
    decodeTableWord 32 0x13C04800 = some (.sub 15 0 1 2 0)
      ∧ decodeTableWord 32 0x1C000000 = none := by decide

/-! ### The ALU: the rows of 95_test_vectors.md 2.1 -/

/-- The rows (in1, in2, result, flag) that an operation answers otherwise. -/
def aluMisses (op : Opcode) (rows : List (Int × Int × Int × AluFlag)) :
    List (Int × Int × Int × AluFlag) :=
  rows.filter fun r =>
    ¬ ((alu op (BitVec.ofInt 32 r.1) r.2.1).1.toInt = r.2.2.1
      ∧ (alu op (BitVec.ofInt 32 r.1) r.2.1).2 = r.2.2.2)

theorem test_alu_add : aluMisses .add
    [(0, 5, 5, .positive), (-2, -3, -5, .minus), (5, -5, 0, .zero),
     (2147483647, 1, -2147483648, .overflow), (-2147483648, -1, 2147483647, .overflow),
     (2147483647, 2147483647, -2, .overflow), (-2147483648, -2147483648, 0, .overflow),
     (2147483647, 0, 2147483647, .positive), (-1, 2147483648, 2147483647, .positive),
     (0, 2147484158, -2147483138, .overflow), (-2147483648, -512, 2147483136, .overflow)] = [] := by
  decide
theorem test_alu_sub : aluMisses .sub
    [(3, 5, -2, .minus), (5, 3, 2, .positive), (7, 7, 0, .zero),
     (-2147483648, 1, 2147483647, .overflow), (0, -2147483648, -2147483648, .overflow),
     (2147483647, -1, -2147483648, .overflow), (-1, 2147483647, -2147483648, .minus),
     (-2147483648, -2147483648, 0, .zero), (-1, 2147483648, 2147483647, .overflow)] = [] := by
  decide
theorem test_alu_mul : aluMisses .mul
    [(-3, 4, -12, .minus), (0, 2147483647, 0, .zero), (65536, 65536, 0, .overflow),
     (-2147483648, -1, -2147483648, .overflow), (-2147483648, 1, -2147483648, .minus),
     (46341, 46341, -2147479015, .overflow), (46340, 46340, 2147395600, .positive),
     (-1, -1, 1, .positive), (2147483647, 2, -2, .overflow),
     (-65536, 32768, -2147483648, .minus)] = [] := by decide
theorem test_alu_div : aluMisses .div
    [(7, 2, 3, .positive), (-7, 2, -3, .minus), (7, -2, -3, .minus), (-7, -2, 3, .positive),
     (1, 2, 0, .zero), (-1, 2, 0, .zero), (5, 0, 0, .overflow), (0, 0, 0, .overflow),
     (-2147483648, 0, 0, .overflow), (-2147483648, -1, -2147483648, .overflow),
     (2147483647, -1, -2147483647, .minus), (5, 2147483648, 0, .zero),
     (100, 7, 14, .positive)] = [] := by decide
theorem test_alu_load : aluMisses .load
    [(0, 20, 20, .positive), (0, 0, 0, .zero), (0, -1, -1, .minus),
     (2147483647, 1, -2147483648, .overflow), (10, -3, 7, .positive)] = [] := by decide
theorem test_alu_store : aluMisses .store
    [(0, 10, 10, .positive), (-2147483648, -1, 2147483647, .overflow)] = [] := by decide
theorem test_alu_halt : aluMisses .halt
    [(0, 0, 0, .zero), (123, -4, 0, .zero), (2147483647, 2147484158, 0, .zero)] = [] := by decide

/-! ### The enable test: the rows of 95_test_vectors.md 2.2, bit c of a row is cond = c -/

theorem test_enable_rows :
    [(1, 0xAAAA), (2, 0xCCCC), (4, 0xF0F0), (8, 0xFF00), (15, 0xFFFE)].all
      (fun row : CondMask × BitVec 16 =>
        (List.range 16).all fun c =>
          enabled row.1 (BitVec.ofNat 4 c) = row.2.getLsbD c) = true := by decide

/-! ### One step: 95_test_vectors.md 2.5 and the examples of the instruction rules, MEM_SIZE = 64 -/

/-- A running core with pc = `a`, x[1] = `r1`, x[2] = `r2`, the given flag and memory words. -/
def testCore (a r1 r2 : Word) (flag : CondMask) (cells : List MemCell) : State :=
  { State.reset with
    regs := ((State.reset.regs.set 15 a).set 1 r1).set 2 r2
    flag := flag, runState := .running, mem := { size := 64, cells := cells } }

/-- The state the next step leaves. -/
def testAfter (s : State) : State := stateLeft s (step s)

/-- Example of R160. -/
theorem test_add_immediate :
    let t := testAfter (testCore 0 0 0 15 [(0, 0x0FC40005)])
    t.readReg 1 = 5 ∧ t.flag = 4 ∧ t.pc = 1 ∧ t.steps = 1 ∧ t.halted = false := by decide
/-- S2 and S5. -/
theorem test_add_jump_and_overflow :
    (let t := testAfter (testCore 10 0 0 15 [(10, 0x0FFC3FFD)]); t.pc = 7 ∧ t.flag = 4)
      ∧ let t := testAfter (testCore 10 2147483647 0 15 [(10, encode (.add 15 15 1 0 1))])
        t.flag = 8 ∧ t.halted = true ∧ t.pc = 11 ∧ t.runState = .halted := by decide
/-- Example of R161. -/
theorem test_sub_less :
    let t := testAfter (testCore 0 3 5 15 [(0, encode (.sub 15 3 1 2 0))])
    t.readReg 3 = -2 ∧ t.flag = 1 ∧ t.pc = 1 := by decide
/-- Example of R162. -/
theorem test_mul_negative_offset :
    let t := testAfter (testCore 0 3 0 15 [(0, encode (.mul 15 4 1 0 (-4)))])
    t.readReg 4 = -12 ∧ t.flag = 1 := by decide
/-- Example of R163. -/
theorem test_div_toward_zero :
    let t := testAfter (testCore 0 (-7) 0 15 [(0, encode (.div 15 3 1 0 2))])
    t.readReg 3 = -3 ∧ t.flag = 1 := by decide
/-- S6. -/
theorem test_div_by_zero :
    let t := testAfter (testCore 1 9 0 15 [(1, 0x1BCC4000)])
    t.readReg 3 = 0 ∧ t.flag = 8 ∧ t.halted = true ∧ t.pc = 2
      ∧ t.runState = .halted := by decide
/-- S4, and S10. -/
theorem test_load_jump_and_overflow :
    (let t := testAfter (testCore 10 0 0 15 [(10, encode (.load 15 15 0 0 20)), (20, 3)]);
      t.pc = 3 ∧ t.flag = 4)
      ∧ let t := testAfter (testCore 5 0 2147483647 15 [(5, encode (.load 15 1 2 0 1))])
        t.halted = true ∧ t.flag = 8 ∧ t.readReg 1 = 0 := by decide
/-- The first step of P4. -/
theorem test_load_negative_address :
    let s := testCore 0 0 0 15 [(0, 0x07C403FF)]
    reported (step s) = some .loadOutOfRange
      ∧ let t := testAfter s
        t.flag = 1 ∧ t.pc = 1 ∧ t.steps = 1 ∧ t.halted = false ∧ t.trace.length = 1
          ∧ t.runState = .faulted { kind := .loadOutOfRange, info := -1 } := by decide
/-- S3. -/
theorem test_store_of_the_program_counter :
    let t := testAfter (testCore 10 0 0 15 [(10, encode (.store 15 15 0 0 20))])
    t.mem.read 20 = some 11 ∧ t.pc = 11 ∧ t.flag = 4 := by decide
/-- S9. -/
theorem test_store_out_of_range :
    let s := testCore 5 1 0 15 [(5, encode (.store 15 1 0 0 64))]
    reported (step s) = some .storeOutOfRange
      ∧ let t := testAfter s
        t.flag = 4 ∧ t.pc = 6 ∧ t.steps = 1 ∧ t.mem = s.mem
          ∧ t.runState = .faulted { kind := .storeOutOfRange, info := 64 } := by decide
/-- S7 and S8. -/
theorem test_halt_disabled :
    (let t := testAfter (testCore 5 0 0 2 [(5, encode (.halt 0 0 0 0 0))]);
      t.pc = 6 ∧ t.halted = false ∧ t.flag = 2)
      ∧ let t := testAfter (testCore 5 0 0 2 [(5, encode (.halt 4 0 0 0 0))])
        t.pc = 6 ∧ t.halted = false ∧ t.runState = .running := by decide
/-- Example of R190. -/
theorem test_halt :
    let t := testAfter (testCore 1 0 0 4 [(1, 0x03C00000)])
    t.flag = 2 ∧ t.pc = 2 ∧ t.halted = true ∧ t.runState = .halted := by decide
/-- S13: the pc wraps, with MEM_SIZE = 2^31. -/
theorem test_pc_wraps :
    let s := { testCore 2147483647 0 0 4 [] with
      mem := { size := 2147483648, cells := [(2147483647, encode (.add 2 0 0 0 0))] } }
    (testAfter s).pc = 0x80000000
      ∧ reported (step (testAfter s)) = some .fetchOutOfRange := by decide
/-- S14 and S15. -/
theorem test_fetch_and_decode_faults :
    (let s := testCore 64 0 0 15 [];
      reported (step s) = some .fetchOutOfRange ∧ (testAfter s).steps = 0
        ∧ (testAfter s).runState = .faulted { kind := .fetchOutOfRange, info := 64 })
      ∧ let s := testCore 0 0 0 15 [(0, 0x1C000000)]
        reported (step s) = some .illegalInstruction ∧ (testAfter s).trace = []
          ∧ (testAfter s).runState
            = .faulted { kind := .illegalInstruction, info := 0x1C000000 } := by decide
/-- 30_encoding.md R78 on the machine at reset: its memory reads zero words. -/
theorem test_zero_word_is_a_no_op :
    let t := testAfter (State.reset.startRun 0)
    t.pc = 1 ∧ t.flag = 15 ∧ t.halted = false ∧ t.steps = 1 := by decide
/-- A write of the fill word takes the cell out, so equal memories are equal data. -/
theorem test_memory_canonical_form :
    ({ size := 64, cells := [(1, 5), (9, 7)] } : Memory).write 4 6
        = some { size := 64, cells := [(1, 5), (4, 6), (9, 7)] }
      ∧ ({ size := 64, cells := [(1, 5), (9, 7)] } : Memory).write 9 0
        = some { size := 64, cells := [(1, 5)] }
      ∧ ¬ ({ size := 64, cells := [(9, 7), (1, 5)] } : Memory).wf
      ∧ ¬ ({ size := 64, cells := [(1, 0)] } : Memory).wf
      ∧ ¬ ({ size := 64, cells := [(64, 1)] } : Memory).wf := by decide
/-- 70_reset_and_hazards.md R231: a run ends HALTED, and the abort leaves IDLE. -/
theorem test_run_and_abort :
    (match run 1 true [.wait, .go] (testCore 0 0 0 4 [(1, 0x03C00000)]) with
      | .halted t => decide (t.pc = 2) | _ => false) = true
      ∧ (match run 1 false [.abort] (testCore 0 0 0 4 []) with
        | .aborted t => decide (t.runState = .idle ∧ t.pc = 1) | _ => false) = true := by decide

/-! ### Witnesses: states and operands that meet the hypotheses of the statements -/

/-- The step answers a next state. -/
def answersNext (s : State) : Bool := match step s with | .next _ => true | _ => false
/-- The step raises a fault. -/
def answersFault (s : State) : Bool := match step s with | .fault _ => true | _ => false

theorem exists_next {s : State} (h : answersNext s = true) : ∃ t, step s = .next t := by
  unfold answersNext at h; split at h <;> simp_all
theorem exists_fault {s : State} (h : answersFault s = true) : ∃ f, step s = .fault f := by
  unfold answersFault at h; split at h <;> simp_all

/-- The core about to run `i` at address 0, with x[1] and x[2] given. -/
def about (i : Instr) (r1 r2 : Word) (flag : CondMask) : State :=
  testCore 0 r1 r2 flag (cellsWrite [] 0 (encode i))

theorem witness_DecodeEncodeAgree :
    (Instr.add 15 1 0 0 511).WellFormed ∧ (Instr.add 15 1 0 0 (-512)).WellFormed
      ∧ decode 0x0FC40200#32 = .ok (.add 15 1 0 0 (-512)) := by decide
theorem witness_DecodeReadsTheFieldBits :
    (0x80000000#32).toNat / 2147483648 = 1 ∧ 6 < (0x1C000000#32).toNat / 67108864 % 32
      ∧ (0x1BFFFFFF#32).toNat / 2147483648 = 0
      ∧ (0x1BFFFFFF#32).toNat / 67108864 % 32 ≤ 6 := by decide
theorem witness_IllegalWordFaults :
    (let s := testCore 0 0 0 15 [(0, 0x1C000000)];
      s.runState = .running ∧ s.mem.read s.pc = some 0x1C000000
        ∧ 7 ≤ (0x1C000000#32).toNat / 67108864 % 32)
      ∧ let s := testCore 63 0 0 15 [(63, 0x80000000)]
        s.runState = .running ∧ s.mem.read s.pc = some 0x80000000
          ∧ (0x80000000#32).toNat / 2147483648 = 1 := by decide
theorem witness_StepRunsTheDecodedInstruction :
    runsNext (testCore 63 0 0 15 [(63, 0x0FC40200)]) 0x0FC40200 (.add 15 1 0 0 (-512))
      ∧ (Instr.add 15 1 0 0 (-512)).WellFormed := by decide
theorem witness_NoStepOutsideRunning : State.reset.runState ≠ .running := by decide
theorem witness_RunStateTransitions :
    (testCore 0 0 0 15 []).runState = .running
      ∧ (testAfter (testCore 0 0 0 15 [(0, 0x03C00000)])).runState = .halted
      ∧ (testAfter (testCore 64 0 0 15 [])).runState
        = .faulted { kind := .fetchOutOfRange, info := 64 } := by decide
theorem witness_StepReportsTheFirstCheck_fetch_and_decode :
    (testCore 64 0 0 15 []).Inv
      ∧ ¬ (testCore 64 0 0 15 []).mem.valid (testCore 64 0 0 15 []).pc
      ∧ (testCore 0 0 0 15 [(0, 0x1C000000)]).Inv
      ∧ decode 0x1C000000 = .error (.unknownOpcode 7) := by decide
theorem witness_StepReportsTheFirstCheck_overflow :
    let i := Instr.add 15 1 1 0 1
    let s := about i 2147483647 0 15
    s.Inv ∧ runsNext s (encode i) i ∧ overflowsIn i s := by decide
/-- The addresses just outside the memory: the fault clauses of LOAD and STORE. -/
theorem witness_StepReportsTheFirstCheck_access :
    (let i := Instr.load 15 1 0 0 64;
      let s := about i 0 0 15;
      s.Inv ∧ runsNext s (encode i) i ∧ commitsIn i s ∧ ¬ s.mem.valid (aluOf i s).1)
      ∧ let i := Instr.store 15 1 0 0 (-1)
        let s := about i 0 0 15
        s.Inv ∧ runsNext s (encode i) i ∧ commitsIn i s ∧ ¬ s.mem.valid (aluOf i s).1 := by decide
/-- The last address of the memory, and HALT: the clauses that report nothing. -/
theorem witness_StepReportsTheFirstCheck_none :
    (let i := Instr.load 15 1 0 0 63;
      let s := about i 0 0 15;
      s.Inv ∧ runsNext s (encode i) i ∧ ¬ overflowsIn i s ∧ s.mem.valid (aluOf i s).1)
      ∧ let i := Instr.halt 15 0 0 0 0
        let s := about i 0 0 15
        s.Inv ∧ runsNext s (encode i) i := by decide
theorem witness_FatalMemoryErrorsLeave :
    (let s := testCore (-1) 0 0 15 []; s.runState = .running ∧ ¬ s.mem.valid s.pc)
      ∧ (let i := Instr.load 15 1 0 0 64;
        let s := about i 0 0 15;
        s.Inv ∧ runsNext s (encode i) i ∧ commitsIn i s ∧ ¬ s.mem.valid (aluOf i s).1)
      ∧ let i := Instr.store 15 1 0 0 (-1)
        let s := about i 0 0 15
        s.Inv ∧ runsNext s (encode i) i ∧ commitsIn i s ∧ ¬ s.mem.valid (aluOf i s).1 := by decide
/-- No write of register 15, an arithmetic jump, a jump through memory. -/
theorem witness_PcAfterStep :
    (let i := Instr.add 15 1 0 0 5;
      runsNext (about i 0 0 15) (encode i) i ∧ answersNext (about i 0 0 15) = true)
      ∧ (let i := Instr.add 15 15 0 0 0;
        runsNext (about i 0 0 15) (encode i) i ∧ commitsIn i (about i 0 0 15)
          ∧ answersNext (about i 0 0 15) = true)
      ∧ let i := Instr.load 15 15 0 0 63
        runsNext (about i 0 0 15) (encode i) i ∧ commitsIn i (about i 0 0 15)
          ∧ answersNext (about i 0 0 15) = true := by decide
theorem witness_HaltedExactlyWhen :
    (about (.halt 15 0 0 0 0) 0 0 15).Inv
      ∧ runsNext (about (.halt 15 0 0 0 0) 0 0 15) 0x03C00000 (.halt 15 0 0 0 0)
      ∧ answersNext (about (.halt 15 0 0 0 0) 0 0 15) = true := by decide
theorem witness_halted_state_executes :
    ∃ t, exec (.halt 15 0 0 0 0) { State.reset with halted := true } = .next t := ⟨_, rfl⟩
theorem witness_OverflowHaltsWithoutCommit :
    let i := Instr.div 15 3 1 0 0
    let s := about i 9 0 15
    s.Inv ∧ runsNext s (encode i) i ∧ overflowsIn i s ∧ answersNext s = true
      ∧ (testAfter s).halted = true := by decide
theorem witness_StepCountsAndSendsOneEvent :
    runsNext (about (.load 15 1 0 0 64) 0 0 15) (encode (.load 15 1 0 0 64)) (.load 15 1 0 0 64)
      ∧ (testCore 64 0 0 15 []).runState = .running
      ∧ (testCore 64 0 0 15 []).mem.read (testCore 64 0 0 15 []).pc = none := by decide
theorem witness_FlagWrittenExactlyWhenEnabled :
    (∃ t, exec (.halt 15 0 0 0 0) State.reset = .next t)
      ∧ enabledIn (.halt 15 0 0 0 0) State.reset
      ∧ (∃ t, exec (.halt 0 0 0 0 0) State.reset = .next t)
      ∧ ¬ enabledIn (.halt 0 0 0 0 0) State.reset := ⟨⟨_, rfl⟩, by decide, ⟨_, rfl⟩, by decide⟩
theorem witness_OnlyStoreChangesMemory :
    (let i := Instr.store 15 1 0 0 63;
      runsNext (about i 7 0 15) (encode i) i ∧ commitsIn i (about i 7 0 15)
        ∧ answersNext (about i 7 0 15) = true)
      ∧ let i := Instr.load 15 1 0 0 63
        runsNext (about i 7 0 15) (encode i) i ∧ answersNext (about i 7 0 15) = true := by decide
/-- The stored word decodes, so that the next step runs it; the last address of the memory. -/
theorem witness_StoreSeenByNextFetch :
    (let i := Instr.store 15 1 15 0 1;
      let s := about i 0x03C00000 0 15;
      s.Inv ∧ runsNext s (encode i) i ∧ commitsIn i s ∧ (aluOf i s).1 = s.pc + 1
        ∧ s.mem.valid (s.pc + 1) ∧ decode (s.readReg 1) = .ok (.halt 15 0 0 0 0))
      ∧ let i := Instr.store 15 15 15 0 1
        let s := testCore 62 0 0 15 [(62, encode i)]
        s.Inv ∧ runsNext s (encode i) i ∧ commitsIn i s ∧ (aluOf i s).1 = s.pc + 1
          ∧ s.mem.valid (s.pc + 1) := by decide
/-- An arithmetic target just past the memory, and the jump to itself. -/
theorem witness_JumpFetchesAtTarget_arithmetic :
    (let i := Instr.add 15 15 0 0 64;
      let s := about i 0 0 15;
      s.Inv ∧ runsNext s (encode i) i ∧ commitsIn i s ∧ ¬ s.mem.valid (aluOf i s).1)
      ∧ let i := Instr.add 15 15 0 15 0
        let s := about i 0 0 15
        s.Inv ∧ runsNext s (encode i) i ∧ commitsIn i s
          ∧ s.mem.read (aluOf i s).1 = some (encode i) ∧ decode (encode i) = .ok i := by decide
/-- A jump through the last word of the memory: to the first invalid address, and to itself. -/
theorem witness_JumpFetchesAtTarget_load :
    (let i := Instr.load 15 15 0 0 63;
      let s := testCore 0 0 0 15 [(0, encode i), (63, 64)];
      s.Inv ∧ runsNext s (encode i) i ∧ commitsIn i s ∧ s.mem.read (aluOf i s).1 = some 64
        ∧ ¬ s.mem.valid 64)
      ∧ let i := Instr.load 15 15 0 0 63
        let s := testCore 1 0 0 15 [(1, encode i), (63, 1)]
        s.Inv ∧ runsNext s (encode i) i ∧ commitsIn i s ∧ s.mem.read (aluOf i s).1 = some 1
          ∧ s.mem.read 1 = some (encode i) ∧ decode (encode i) = .ok i := by decide
theorem witness_NeverWordIsNoOp :
    (testCore 63 0 0 15 []).Inv ∧ runsNext (testCore 63 0 0 15 []) 0 (.halt 0 0 0 0 0) := by decide
theorem witness_StepKeepsInvariant :
    (about (.store 15 1 0 0 63) 7 0 15).Inv
      ∧ ∃ t, step (about (.store 15 1 0 0 63) 7 0 15) = .next t :=
  ⟨by decide, exists_next (by decide)⟩
theorem witness_FaultLeavesInvariant :
    (about (.store 15 1 0 0 64) 7 0 15).Inv
      ∧ ∃ f, step (about (.store 15 1 0 0 64) 7 0 15) = .fault f :=
  ⟨by decide, exists_fault (by decide)⟩
theorem witness_HostActsKeepInvariant :
    (testCore 63 1 2 8 [(63, 1)]).Inv := by decide
theorem witness_RunKeepsInvariant :
    (about (.halt 15 0 0 0 0) 0 0 8).Inv
      ∧ ((run 0 true [.go] (about (.halt 15 0 0 0 0) 0 0 8)).state?).isSome = true := by decide
theorem witness_AluDivides :
    (alu .div 5 0).2 = .overflow ∧ (alu .div 0x80000000 (-1)).2 = .overflow
      ∧ (-1 : Int) ≠ 0 := by decide
theorem witness_AluExactUnlessOverflow :
    (alu .add 2147483646 1).2 ≠ .overflow ∧ (alu .sub 0x80000001 1).2 ≠ .overflow
      ∧ (alu .mul 0xFFFF0000 32768).2 ≠ .overflow ∧ (alu .div 0x80000000 1).2 ≠ .overflow
      ∧ (alu .load (-1) 2147483648).2 ≠ .overflow ∧ (alu .store 0 0).2 ≠ .overflow
      ∧ (alu .halt 0 0).2 ≠ .overflow := by decide
theorem witness_EnableTest :
    (6 : CondMask) ≠ 15 ∧ (6 : CondMask) ≠ 0 ∧ legalFlag 1 ∧ legalFlag 15 := by decide
theorem witness_RegisterFile_and_StartRunWritesOnly :
    (15 : RegNum) ≠ 0 ∧ (1 : RegNum) ≠ 15 ∧ (0 : RegNum) ≠ 15 := by decide
theorem witness_MemoryPort :
    let m : Memory := { size := 64, cells := [(63, 1)] }
    m.wf ∧ m.valid 0 ∧ m.valid 63 ∧ ¬ m.valid 64 ∧ ¬ m.valid (-1) := by decide
/-- For ADD, SUB, MUL and DIV: disabled, V, neither. -/
theorem witness_ArithmeticEffect :
    enabled 4 2 = false ∧ enabled 15 15 = true ∧ signFlag 2147483648 = 8
      ∧ signFlag (-2147483648) ≠ 8 ∧ signFlag 2147483647 ≠ 8
      ∧ signFlag (signedQuotient (-2147483648) (-1)) = 8
      ∧ signFlag (signedQuotient (-2147483648) 1) ≠ 8 := by decide
theorem witness_HaltEffect : enabled 15 15 = true ∧ enabled 2 4 = false := by decide
/-- For LOAD and STORE: the sums at the bounds of V, and addresses -1, 0, 63 and 64 of 64. -/
theorem witness_LoadEffect_and_StoreEffect :
    let s := testCore 0 2147483647 0 15 []
    enabled s.flag 15 = true ∧ enabled s.flag 0 = false
      ∧ overflows ((s.readReg 1).toInt + ((s.readReg 0).toInt + 1))
      ∧ ¬ overflows ((s.readReg 1).toInt + ((s.readReg 0).toInt + 0))
      ∧ (s.mem.size : Int) ≤ (s.readReg 1).toInt + ((s.readReg 0).toInt + 0)
      ∧ (s.readReg 0).toInt + ((s.readReg 0).toInt + 64) ≥ s.mem.size
      ∧ (s.readReg 0).toInt + ((s.readReg 0).toInt + 63) < s.mem.size
      ∧ 0 ≤ (s.readReg 0).toInt + ((s.readReg 0).toInt + 0)
      ∧ (s.readReg 0).toInt + ((s.readReg 0).toInt + -1) < 0 ∧ s.mem.wf := by decide
theorem witness_DisabledChangesOnlyPcAndSteps :
    ¬ enabledIn (.store 2 1 0 0 64) (testCore 3 0 0 4 []) := by decide
theorem witness_ProgramCounterReadsTwoWays :
    (1 : RegNum) ≠ 0 ∧ (14 : RegNum) ≠ 15 ∧ (testCore 3 0 0 4 []).mem.wf
      ∧ offsetFits 63 ∧ (63 : Int) < (testCore 3 0 0 4 []).mem.size := by decide
/-- Taken at both ends of the range of pc, and not taken. -/
theorem witness_ConditionalBranch :
    enabled (testCore 2147483647 0 0 4 []).flag 4 = true
      ∧ ¬ overflows ((testCore 2147483647 0 0 4 []).pc.toInt + 0)
      ∧ ¬ overflows ((testCore 0x80000000 0 0 4 []).pc.toInt + 0)
      ∧ enabled (testCore 2147483647 0 0 4 []).flag 2 = false := by decide
theorem witness_PseudoInstructions :
    enabled (testCore 512 0 0 4 []).flag 4 = true
      ∧ ¬ overflows ((testCore 512 0 0 4 []).pc.toInt + -512)
      ∧ offsetFits ((1023 : Word).toInt - (testCore 512 0 0 4 []).pc.toInt)
      ∧ offsetFits ((0 : Word).toInt - (testCore 512 0 0 4 []).pc.toInt)
      ∧ offsetFits 511 ∧ offsetFits (-512) := by decide
theorem witness_AbortLeavesTheLastStep :
    (testCore 0 0 0 15 []).Inv ∧ (testCore 0 0 0 15 []).runState = .running := by decide
/-- One run for each way a run can end. -/
theorem witness_RunEndStates :
    (match run 0 false [.go] (about (.halt 15 0 0 0 0) 0 0 15) with
      | .halted _ => true | _ => false) = true
      ∧ (match run 0 true [.wait, .abort] (testCore 0 0 0 15 []) with
        | .aborted _ => true | _ => false) = true
      ∧ (match run 0 true [.wait] (testCore 0 0 0 15 []) with
        | .unfinished _ => true | _ => false) = true
      ∧ (match run 64 false [.wait] (testCore 0 0 0 15 []) with
        | .faulted _ => true | _ => false) = true := by decide
theorem witness_PlacedWordRunsFirst :
    (Instr.div 15 15 15 15 (-512)).WellFormed ∧ (Instr.halt 0 0 0 0 511).WellFormed := by decide

end Sys2Proof.Machine
end

/-! PROOFS for 10_state.md. What a next state of a meaning and of a step is, each said once;
from that the obligations about the invariant, `halted`, the flag, reset and the registers. -/

namespace Sys2Proof.Machine

/-! ### The states a commit leaves -/

theorem Committed.counted {i : Instr} {s t : State} (h : Committed i s t) : Counted s t :=
  ⟨h.steps, h.runState, h.trace⟩

/-- Only STORE writes the memory, and `Memory.write` keeps the canonical form. -/
theorem Committed.mem_wf {i : Instr} {s t : State} (h : Committed i s t) (hw : s.mem.wf) :
    t.mem.wf := by
  rcases h with ⟨-, -, rfl⟩ | ⟨-, v, -, rfl⟩ | ⟨-, m, hm, rfl⟩ | ⟨-, rfl⟩
  · simpa using hw
  · simpa using hw
  · exact Memory.write_wf hm hw
  · simpa using hw

/-- Without V, HALT is the one commit that writes `halted`. -/
theorem Committed.halted_iff {i : Instr} {s t : State} (h : Committed i s t)
    (hv : (aluOf i s).2 ≠ .overflow) : t.halted = true ↔ s.halted = true ∨ i.op = .halt := by
  rcases h with ⟨-, ⟨-, hop⟩, rfl⟩ | ⟨hop, v, -, rfl⟩ | ⟨hop, m, -, rfl⟩ | ⟨hop, rfl⟩
  · simp [hop, hv]
  · simp [hop, hv]
  · simp [hop, hv]
  · simp [hop]

/-! ### The next state of a meaning -/

/-- Every next state of a meaning: disabled, stopped by V, or committed (41_cpu_step.md R142). -/
theorem exec_next_cases {i : Instr} {s t : State} (h : exec i s = .next t) :
    (¬ enabledIn i s ∧ t = s.advance)
      ∨ (overflowsIn i s ∧ t = issued i s)
      ∨ (commitsIn i s ∧ Committed i s t) := by
  rcases exec_answers i s with ⟨hd, e⟩ | ⟨hv, e⟩ | ⟨hc, u, hu, e⟩ | ⟨-, f, -, e⟩
  · exact .inl ⟨hd, Host.Outcome.next.inj (h.symm.trans e)⟩
  · exact .inr (.inl ⟨hv, Host.Outcome.next.inj (h.symm.trans e)⟩)
  · obtain rfl := Host.Outcome.next.inj (h.symm.trans e)
    exact .inr (.inr ⟨hc, hu⟩)
  · cases h.symm.trans e

section
variable {i : Instr} {s t : State} (h : exec i s = .next t)
include h

theorem exec_next_counted : Counted s t := by
  rcases exec_next_cases h with ⟨-, rfl⟩ | ⟨-, rfl⟩ | ⟨-, hc⟩
  · exact ⟨advance_steps s, advance_runState s, advance_trace s⟩
  · exact ⟨issued_steps i s, issued_runState i s, issued_trace i s⟩
  · exact hc.counted

theorem exec_next_cell_zero : t.regs[0] = s.regs[0] := by
  rcases exec_next_cases h with ⟨-, rfl⟩ | ⟨-, rfl⟩ | ⟨-, hc⟩
  · exact advance_cell_zero s
  · exact issued_cell_zero i s
  · exact hc.cell_zero

theorem exec_next_mem_wf (hw : s.mem.wf) : t.mem.wf := by
  rcases exec_next_cases h with ⟨-, rfl⟩ | ⟨-, rfl⟩ | ⟨-, hc⟩
  · rwa [advance_mem]
  · rwa [issued_mem]
  · exact hc.mem_wf hw

theorem exec_next_flag_of_enabled (he : enabledIn i s) : t.flag = (aluOf i s).2.bits := by
  rcases exec_next_cases h with ⟨hd, -⟩ | ⟨-, rfl⟩ | ⟨-, hc⟩
  · exact absurd he hd
  · exact issued_flag i s
  · exact hc.flag

theorem exec_next_flag_of_disabled (hd : ¬ enabledIn i s) : t.flag = s.flag := by
  rcases exec_next_cases h with ⟨-, rfl⟩ | ⟨hv, -⟩ | ⟨hc, -⟩
  · exact advance_flag s
  · exact absurd hv.1 hd
  · exact absurd hc.1 hd

theorem exec_next_legalFlag (hf : legalFlag s.flag) : legalFlag t.flag := by
  by_cases he : enabledIn i s
  · rw [exec_next_flag_of_enabled h he]
    exact bits_legal _
  · rwa [exec_next_flag_of_disabled h he]

/-- `halted` after a meaning: kept, set by an enabled HALT, or set by V (10_state.md R32). -/
theorem exec_next_halted_iff :
    t.halted = true ↔ s.halted = true ∨ (enabledIn i s ∧ i.op = .halt) ∨ overflowsIn i s := by
  rcases exec_next_cases h with ⟨hd, rfl⟩ | ⟨hv, rfl⟩ | ⟨⟨he, hv⟩, hc⟩
  · rw [advance_halted]
    simp only [hd, overflowsIn, false_and, or_false]
  · exact iff_of_true (by rw [issued_halted, if_pos hv.2]) (.inr (.inr hv))
  · have not_overflow : ¬ overflowsIn i s := fun hov => hv hov.2
    rw [hc.halted_iff hv, and_iff_right he, or_iff_left not_overflow]

end

/-! ### The next state of a step -/

/-- The event of a step is no input of the enable test. -/
theorem enabledIn_emit (i : Instr) (s : State) (e : StepEvent) :
    enabledIn i (s.emit e) ↔ enabledIn i s := Iff.rfl

theorem overflowsIn_emit (i : Instr) (s : State) (e : StepEvent) :
    overflowsIn i (s.emit e) ↔ overflowsIn i s := Iff.rfl

/-- Every next state of a step is the settled next state of the decoded instruction, run on the
state that holds the step's event (41_cpu_step.md R144). -/
theorem step_next_cases {s t : State} (h : step s = .next t) :
    ∃ w i u, runsNext s w i
      ∧ exec i (s.emit { pc := s.pc, word := w, instr := i }) = .next u ∧ t = u.settle := by
  rcases step_cases s with ⟨-, e⟩ | ⟨-, -, e⟩ | ⟨-, w, _, -, -, e⟩ | ⟨w, i, hrun, e⟩
  · cases h.symm.trans e
  · cases h.symm.trans e
  · cases h.symm.trans e
  · obtain ⟨u, hu, ht⟩ := settleAnswer_next (e.symm.trans h)
    exact ⟨w, i, u, hrun, hu, ht⟩

/-- The step of a known instruction that answers a next state. -/
theorem exec_of_step_next {s t : State} {w : Word} {i : Instr} (hrun : runsNext s w i)
    (h : step s = .next t) :
    ∃ u, exec i (s.emit { pc := s.pc, word := w, instr := i }) = .next u ∧ t = u.settle :=
  settleAnswer_next ((step_of_runsNext hrun).symm.trans h)

/-- The step's end puts a running core in HALTED exactly when `halted` is true (10_state.md R34). -/
theorem settle_halted_iff {u : State} (h : u.runState = .running) :
    u.settle.runState = .halted ↔ u.settle.halted = true := by
  rw [settle_runState, settle_halted, h]
  cases u.halted <;> simp

/-- Settles O22: each part of the invariant, through the meaning and then the step's end. -/
theorem stepKeepsInvariant : Obligations.StepKeepsInvariant := by
  intro s t ⟨hcell, hflag, _, hmem, hlen, hdec⟩ hstep
  obtain ⟨w, i, u, ⟨hrunning, _, hword⟩, hexec, rfl⟩ := step_next_cases hstep
  obtain ⟨hsteps, hrunState, htrace⟩ := exec_next_counted hexec
  refine ⟨?cell, ?flag, settle_halted_iff (hrunState.trans hrunning), ?mem, ?count, ?events⟩
  case cell =>
    rw [settle_regs, exec_next_cell_zero hexec]
    exact hcell
  case flag =>
    rw [settle_flag]
    exact exec_next_legalFlag hexec hflag
  case mem =>
    rw [settle_mem]
    exact exec_next_mem_wf hexec hmem
  case count => simp [htrace, hsteps, hlen]
  case events =>
    intro e he
    rw [settle_trace, htrace, emit_trace] at he
    rcases List.mem_cons.mp he with rfl | hold
    · exact hword
    · exact hdec e hold

/-- Settles O11: `exec_next_halted_iff` for a state that is not halted before the step, and for one
that is. -/
theorem haltedExactlyWhen : Obligations.HaltedExactlyWhen := by
  refine ⟨fun s t w i hinv hrun hstep => ?_, startRun_halted,
    fun i s t hexec hs => (exec_next_halted_iff hexec).mpr (.inl hs)⟩
  obtain ⟨u, hexec, rfl⟩ := exec_of_step_next hrun hstep
  have hbefore : s.halted = false := hinv.not_halted hrun.1
  rw [settle_halted, exec_next_halted_iff hexec, emit_halted, hbefore, enabledIn_emit,
    overflowsIn_emit, or_iff_right Bool.false_ne_true]

/-! ### The flag register -/

/-- The ALU's flag is one of M, Z, P and V, never ALWAYS (10_state.md R28). -/
theorem bits_primitive (f : AluFlag) : f.bits = 1 ∨ f.bits = 2 ∨ f.bits = 4 ∨ f.bits = 8 := by
  cases f <;> decide

/-- Settles O15: an enabled instruction leaves the ALU's flag. -/
theorem flagWrittenExactlyWhenEnabled : Obligations.FlagWrittenExactlyWhenEnabled := by
  refine fun i s t hexec => ⟨fun he => ?_, exec_next_flag_of_disabled hexec⟩
  rw [exec_next_flag_of_enabled hexec he]
  exact bits_primitive _

/-! ### Reset and the register file -/

theorem reset_readReg (r : RegNum) : State.reset.readReg r = 0 := by
  unfold State.readReg
  split
  · rfl
  · exact Vector.getElem_replicate r.isLt

/-- Settles O20: the registers by `reset_readReg`, the other fields as `State.reset` gives them. -/
theorem resetStateValues : Obligations.ResetStateValues :=
  ⟨reset_readReg, reset_readReg 15, rfl, rfl, rfl, rfl, rfl⟩

/-- Settles O21: the memory by `reset_mem_wf`; at reset the record is empty and no step counted. -/
theorem resetMeetsInvariant : Obligations.ResetMeetsInvariant := by
  have flag_always : legalFlag State.reset.flag := .inr (.inr (.inr (.inr rfl)))
  have not_halted : State.reset.runState = .halted ↔ State.reset.halted = true := by
    simp [State.reset]
  exact ⟨rfl, flag_always, not_halted, reset_mem_wf, rfl, by simp [State.reset]⟩

/-- Settles O31: the read and write laws of the register file, pc being register 15. -/
theorem registerFile : Obligations.RegisterFile := fun s i v =>
  ⟨readReg_zero s, writeReg_zero s v, rfl, readReg_writeReg_same s 15 v (by decide),
    readReg_writeReg_same s i v, fun j => readReg_writeReg_ne s i j v⟩

end Sys2Proof.Machine

/-! PROOFS for 20_memory.md. What the memory port answers, what each meaning does to the memory, and
that a committed STORE is there for the next fetch. -/

namespace Sys2Proof.Machine

/-! ### The memory port -/

theorem Memory.read_isSome_iff (m : Memory) (a : Word) : (m.read a).isSome = true ↔ m.valid a := by
  rw [Option.isSome_iff_ne_none, ne_eq, Memory.read_eq_none, not_not]

theorem Memory.exists_write_of_valid {m : Memory} {a : Word} (v : Word) (h : m.valid a) :
    ∃ m', m.write a v = some m' :=
  Option.ne_none_iff_exists'.mp fun hnone => Memory.write_eq_none.mp hnone h

/-- Settles O32: the range check by `Memory.read_isSome_iff` and `Memory.write_eq_none`, the contents
by the read and write laws. -/
theorem memoryPort : Obligations.MemoryPort := by
  intro m a v hwf
  refine ⟨Memory.read_isSome_iff m a, Memory.write_eq_none.mpr, fun hlow hhigh => ?_⟩
  obtain ⟨m', hm⟩ := Memory.exists_write_of_valid v ⟨hlow, hhigh⟩
  exact ⟨m', hm, Memory.write_size hm, Memory.read_write_same hm hwf,
    fun _ hb => Memory.read_write_ne hm hb⟩

/-! ### The memory after a meaning -/

theorem sameMemory_of_mem_eq {s t : State} (h : t.mem = s.mem) : SameMemory s t := by
  simp [SameMemory, h]

theorem sameMemoryBut_of_write {s t : State} {a v : Word} (h : s.mem.write a v = some t.mem) :
    SameMemoryBut a s t :=
  ⟨Memory.write_size h, fun _ hb => Memory.read_write_ne h hb⟩

/-- A committed STORE leaves the memory its write answered; every other commit leaves it alone. -/
theorem Committed.mem_cases {i : Instr} {s t : State} (h : Committed i s t) :
    (i.op ≠ .store ∧ t.mem = s.mem)
      ∨ (i.op = .store
          ∧ s.mem.write (aluOf i s).1 ((issued i s).readReg i.rT) = some t.mem) := by
  rcases h with ⟨-, ⟨hop, -⟩, rfl⟩ | ⟨hop, v, -, rfl⟩ | ⟨hop, m, hm, rfl⟩ | ⟨hop, rfl⟩
  · exact .inl ⟨hop, by simp⟩
  · exact .inl ⟨by simp [hop], by simp⟩
  · exact .inr ⟨hop, hm⟩
  · exact .inl ⟨by simp [hop], by simp⟩

/-- The memory of every next state of a meaning (41_cpu_step.md R141 and R142). -/
theorem exec_next_mem_cases {i : Instr} {s t : State} (h : exec i s = .next t) :
    (¬ (i.op = .store ∧ commitsIn i s) ∧ t.mem = s.mem)
      ∨ (i.op = .store ∧ commitsIn i s
          ∧ s.mem.write (aluOf i s).1 ((issued i s).readReg i.rT) = some t.mem) := by
  rcases exec_next_cases h with ⟨hd, rfl⟩ | ⟨hv, rfl⟩ | ⟨hc, hcommitted⟩
  · exact .inl ⟨fun hs => hd hs.2.1, advance_mem s⟩
  · exact .inl ⟨fun hs => hs.2.2 hv.2, issued_mem i s⟩
  · rcases hcommitted.mem_cases with ⟨hop, hmem⟩ | ⟨hop, hwrite⟩
    · exact .inl ⟨fun hs => hop hs.1, hmem⟩
    · exact .inr ⟨hop, hc, hwrite⟩

theorem commitsIn_emit (i : Instr) (s : State) (e : StepEvent) :
    commitsIn i (s.emit e) ↔ commitsIn i s := Iff.rfl

/-- Settles O16: the two cases of `exec_next_mem_cases`; neither the step's event nor its end touches
the memory. -/
theorem onlyStoreChangesMemory : Obligations.OnlyStoreChangesMemory := by
  intro s t w i hrun hstep
  obtain ⟨u, hexec, rfl⟩ := exec_of_step_next hrun hstep
  have hcases := exec_next_mem_cases hexec
  rw [commitsIn_emit, aluOf_emit, emit_mem, ← settle_mem u] at hcases
  rcases hcases with ⟨hno, hmem⟩ | ⟨hop, hc, hwrite⟩
  · exact ⟨fun hop hc => absurd ⟨hop, hc⟩ hno, fun _ => sameMemory_of_mem_eq hmem⟩
  · exact ⟨fun _ _ => sameMemoryBut_of_write hwrite, fun hno => absurd ⟨hop, hc⟩ hno⟩

/-! ### A STORE and the fetch after it -/

theorem commitOf_of_store {i : Instr} (h : i.op = .store) : commitOf i = commitStore i.rT := by
  simp [commitOf, h]

/-- What a commit reads of the registers: pc is already advanced (41_cpu_step.md R141). -/
theorem issued_readReg (i : Instr) (s : State) (r : RegNum) :
    (issued i s).readReg r = if r = 15 then s.pc + 1 else s.readReg r := by
  split
  case isTrue h => exact h ▸ issued_pc i s
  case isFalse h => exact issued_readReg_ne i s h

/-- A committed STORE to a valid address answers a next state, its memory the written one, and does
not stop the run. -/
theorem exec_store_of_valid {i : Instr} {s : State} (hop : i.op = .store) (hc : commitsIn i s)
    (hv : s.mem.valid (aluOf i s).1) :
    ∃ u, exec i s = .next u
      ∧ s.mem.write (aluOf i s).1 (if i.rT = 15 then s.pc + 1 else s.readReg i.rT) = some u.mem
      ∧ u.pc = s.pc + 1 ∧ u.halted = s.halted ∧ u.runState = s.runState := by
  obtain ⟨m, hm⟩ := Memory.exists_write_of_valid ((issued i s).readReg i.rT) hv
  have hexec : exec i s = .next { issued i s with mem := m } := by
    rw [exec_of_commit hc, commitOf_of_store hop, commitStore, issued_mem, hm]
  have halted_kept : (issued i s).halted = s.halted := by rw [issued_halted, if_neg hc.2]
  rw [issued_readReg] at hm
  exact ⟨_, hexec, hm, issued_pc i s, halted_kept, issued_runState i s⟩

/-- Settles O17: the STORE's next state is still running, its pc is the address written, and the
memory there reads back the value written. -/
theorem storeSeenByNextFetch : Obligations.StoreSeenByNextFetch := by
  intro s w i hinv hrun hop hc haddr hvalid
  have ⟨_, _, _, hmem_wf, _⟩ := hinv
  obtain ⟨u, hexec, hwrite, hpc, hhalted, hrunState⟩ :=
    exec_store_of_valid (s := s.emit { pc := s.pc, word := w, instr := i }) hop
      ((commitsIn_emit i s _).mpr hc) (by rwa [emit_mem, aluOf_emit, haddr])
  rw [emit_mem, aluOf_emit, haddr, emit_pc, emit_readReg] at hwrite
  have hstep : step s = .next u.settle := by rw [step_of_runsNext hrun, hexec, settleAnswer]
  have hrunning : u.settle.runState = .running := by
    rw [settle_runState, hhalted, emit_halted, hinv.not_halted hrun.1, hrunState, emit_runState]
    exact hrun.1
  have hread : u.settle.mem.read u.settle.pc
      = some (if i.rT = 15 then s.pc + 1 else s.readReg i.rT) := by
    rw [settle_mem, settle_pc, hpc, emit_pc]
    exact Memory.read_write_same hwrite hmem_wf
  exact ⟨u.settle, hstep, hread, fun _ hj => ⟨hrunning, hread, hj⟩⟩

end Sys2Proof.Machine

/-! PROOFS for 30_encoding.md. What `decode` answers, said once by the digits a word's fields are, and
from that the round trip; then what a word with condition NEVER and the pseudo-instructions do. -/

namespace Sys2Proof

/-! ### The fields of an instruction and the opcode numbers -/

section
variable (op : Opcode) (c : CondMask) (t a b : RegNum) (o : Int)

@[simp] theorem make_op : (Instr.make op c t a b o).op = op := by cases op <;> rfl
@[simp] theorem make_cond : (Instr.make op c t a b o).cond = c := by cases op <;> rfl
@[simp] theorem make_rT : (Instr.make op c t a b o).rT = t := by cases op <;> rfl
@[simp] theorem make_rS1 : (Instr.make op c t a b o).rS1 = a := by cases op <;> rfl
@[simp] theorem make_rS2 : (Instr.make op c t a b o).rS2 = b := by cases op <;> rfl
@[simp] theorem make_off : (Instr.make op c t a b o).off = o := by cases op <;> rfl

end

/-- An instruction is its six fields (30_encoding.md R82). -/
theorem make_fields (i : Instr) : Instr.make i.op i.cond i.rT i.rS1 i.rS2 i.off = i := by
  cases i <;> rfl

theorem opcodeNumber_le_six (op : Opcode) : (opcodeNumber op).toNat ≤ 6 := by cases op <;> decide

theorem opcodeOf_opcodeNumber (op : Opcode) : opcodeOf (opcodeNumber op) = some op := by
  cases op <;> rfl

theorem opcodeNumber_injective {op op' : Opcode}
    (h : (opcodeNumber op).toNat = (opcodeNumber op').toNat) : op = op' :=
  Option.some.inj <| by
    rw [← opcodeOf_opcodeNumber op, BitVec.eq_of_toNat_eq h, opcodeOf_opcodeNumber]

/-- The numbers 0 to 6, and no others, name an opcode (30_encoding.md R75, R76). -/
theorem opcodeOf_cases (n : BitVec 5) :
    (∃ op, opcodeOf n = some op ∧ (opcodeNumber op).toNat = n.toNat)
      ∨ (opcodeOf n = none ∧ 6 < n.toNat) := by
  unfold opcodeOf
  split
  case h_8 => exact .inr ⟨rfl, by grind⟩
  all_goals
    next h => exact .inl ⟨_, rfl, h.symm⟩

/-- The table of opcodes, listed in the order of their numbers. -/
theorem opcodes_getElem? (op : Opcode) :
    [Opcode.halt, .load, .store, .add, .sub, .mul, .div][(opcodeNumber op).toNat]? = some op := by
  cases op <;> rfl

/-! ### What decode answers -/

/-- The fields of `i` are the digits of the number `u` at the bits of 30_encoding.md R71, and bit 31
of `u` is zero. -/
structure HasFields (u : Nat) (i : Instr) : Prop where
  reserved : u / 2147483648 = 0
  op : (opcodeNumber i.op).toNat = u / 67108864 % 32
  cond : i.cond.toNat = u / 4194304 % 16
  rT : i.rT.val = u / 262144 % 16
  rS1 : i.rS1.val = u / 16384 % 16
  rS2 : i.rS2.val = u / 1024 % 16
  off : i.off = if u % 1024 < 512 then (u % 1024 : Int) else (u % 1024 : Int) - 1024

/-- A number holds the fields of one instruction at most. -/
theorem HasFields.unique {u : Nat} {i j : Instr} (hi : HasFields u i) (hj : HasFields u j) :
    i = j := by
  have op_eq : i.op = j.op := opcodeNumber_injective (hi.op.trans hj.op.symm)
  have cond_eq : i.cond = j.cond := BitVec.eq_of_toNat_eq (hi.cond.trans hj.cond.symm)
  have rT_eq : i.rT = j.rT := Fin.ext (hi.rT.trans hj.rT.symm)
  have rS1_eq : i.rS1 = j.rS1 := Fin.ext (hi.rS1.trans hj.rS1.symm)
  have rS2_eq : i.rS2 = j.rS2 := Fin.ext (hi.rS2.trans hj.rS2.symm)
  have off_eq : i.off = j.off := hi.off.trans hj.off.symm
  rw [← make_fields i, ← make_fields j, op_eq, cond_eq, rT_eq, rS1_eq, rS2_eq, off_eq]

/-- The sign-extended offset is in the range of 30_encoding.md R72. -/
theorem HasFields.wellFormed {u : Nat} {i : Instr} (h : HasFields u i) : i.WellFormed := by
  have hoff := h.off
  split at hoff <;> exact ⟨by omega, by omega⟩

theorem fieldAt_31_eq_one (w : Word) : fieldAt w 31 1 = 1 ↔ w.toNat / 2147483648 = 1 := by
  have hw := w.isLt
  rw [← BitVec.toNat_inj, Laws.fieldAt_toNat]
  change w.toNat / 2147483648 % 2 = 1 ↔ _
  omega

theorem sext10_fieldAt (w : Word) : sext10 (fieldAt w 0 10)
    = if w.toNat % 1024 < 512 then (w.toNat % 1024 : Int) else (w.toNat % 1024 : Int) - 1024 := by
  have hfield : (fieldAt w 0 10).toNat = w.toNat % 1024 := by simp [Laws.fieldAt_toNat]
  simp [sext10, hfield]

/-- The instruction the decoder builds from a word without bit 31 has the word's fields. -/
theorem hasFields_make {w : Word} {op : Opcode} (hres : w.toNat / 2147483648 = 0)
    (hop : (opcodeNumber op).toNat = (fieldAt w 26 5).toNat) :
    HasFields w.toNat (.make op (fieldAt w 22 4) (regAt w 18) (regAt w 14) (regAt w 10)
      (sext10 (fieldAt w 0 10))) where
  reserved := hres
  op := by rw [make_op, hop]; exact Laws.fieldAt_toNat w 26 5
  cond := by rw [make_cond]; exact Laws.fieldAt_toNat w 22 4
  rT := by rw [make_rT]; exact Laws.fieldAt_toNat w 18 4
  rS1 := by rw [make_rS1]; exact Laws.fieldAt_toNat w 14 4
  rS2 := by rw [make_rS2]; exact Laws.fieldAt_toNat w 10 4
  off := by rw [make_off]; exact sext10_fieldAt w

/-- Everything the decoder can answer (30_encoding.md R71, R76). -/
theorem decode_cases (w : Word) :
    (w.toNat / 2147483648 = 1 ∧ decode w = .error .reservedBit)
      ∨ (6 < w.toNat / 67108864 % 32
          ∧ decode w = .error (.unknownOpcode (w.toNat / 67108864 % 32)))
      ∨ ∃ i, HasFields w.toNat i ∧ decode w = .ok i := by
  have hw := w.isLt
  have hnumber : (fieldAt w 26 5).toNat = w.toNat / 67108864 % 32 := Laws.fieldAt_toNat w 26 5
  unfold decode
  by_cases hbit : fieldAt w 31 1 = 1
  · exact .inl ⟨(fieldAt_31_eq_one w).mp hbit, if_pos hbit⟩
  · have hres : w.toNat / 2147483648 = 0 := by
      have := mt (fieldAt_31_eq_one w).mpr hbit
      omega
    rw [if_neg hbit]
    rcases opcodeOf_cases (fieldAt w 26 5) with ⟨op, hop, hn⟩ | ⟨hnone, hn⟩
    · exact .inr (.inr ⟨_, hasFields_make hres hn, by rw [hop]⟩)
    · exact .inr (.inl ⟨hnumber ▸ hn, by rw [hnone, hnumber]⟩)

/-- The words that decode to `i` are those that hold its fields. -/
theorem decode_eq_ok_iff {w : Word} {i : Instr} : decode w = .ok i ↔ HasFields w.toNat i := by
  rcases decode_cases w with ⟨hres, e⟩ | ⟨hop, e⟩ | ⟨j, hj, e⟩
  · refine iff_of_false (by simp [e]) fun h => ?_
    have := h.reserved
    omega
  · refine iff_of_false (by simp [e]) fun h => ?_
    have := h.op
    have := opcodeNumber_le_six i.op
    omega
  · rw [e]
    exact ⟨fun h => Except.ok.inj h ▸ hj, fun h => congrArg _ (hj.unique h)⟩

/-! ### The round trip -/

/-- The encoder puts every field of a well-formed instruction at its digits. -/
theorem hasFields_encode {i : Instr} (h : i.WellFormed) : HasFields (encode i).toNat i := by
  obtain ⟨hlow, hhigh⟩ := h
  have hop := opcodeNumber_le_six i.op
  have hc := i.cond.isLt
  have ht := i.rT.isLt
  have ha := i.rS1.isLt
  have hb := i.rS2.isLt
  rw [Laws.encode_toNat]
  constructor
  case off => split <;> omega
  all_goals omega

/-- The word of an instruction is the only one with its fields: they fill all 32 bits. -/
theorem HasFields.encode_eq {w : Word} {i : Instr} (h : HasFields w.toNat i) : encode i = w := by
  obtain ⟨hres, hop, hc, ht, ha, hb, hoff⟩ := h
  have hw := w.isLt
  have hdigit : (i.off % 1024).toNat = w.toNat % 1024 := by split at hoff <;> omega
  apply BitVec.eq_of_toNat_eq
  rw [Laws.encode_toNat, hop, hc, ht, ha, hb, hdigit]
  omega

/-- Bit 31 of an encoded word is zero (30_encoding.md R79). -/
theorem encode_toNat_lt (i : Instr) : (encode i).toNat < 2147483648 := by
  have hw := (encode i).isLt
  have hbit : (encode i).toNat / 2147483648 % 2 = 0 :=
    (Laws.fieldAt_toNat (encode i) 31 1).symm.trans
      (congrArg BitVec.toNat (Laws.encode_selects i).1)
  omega

/-- The encoder's number fits a word, so nothing is cut off (30_encoding.md R79). -/
theorem encode_toNat_eq_or (i : Instr) :
    (encode i).toNat = ((opcodeNumber i.op).toNat <<< 26 ||| i.cond.toNat <<< 22
      ||| i.rT.val <<< 18 ||| i.rS1.val <<< 14 ||| i.rS2.val <<< 10 ||| (i.off % 1024).toNat) := by
  have hop := (opcodeNumber i.op).isLt
  have hc := i.cond.isLt
  have ht := i.rT.isLt
  have ha := i.rS1.isLt
  have hb := i.rS2.isLt
  rw [encode, BitVec.toNat_ofNat]
  apply Nat.mod_eq_of_lt
  simp only [Nat.shiftLeft_eq]
  iterate 5 refine Nat.or_lt_two_pow ?_ (by omega)
  omega

theorem encode_toInt_nonneg (i : Instr) : 0 ≤ (encode i).toInt := by
  have hlt := encode_toNat_lt i
  exact BitVec.toInt_pos_iff.mpr (by omega)

/-- Settles O1: a word decodes to an instruction exactly when it holds its fields, and the encoder's
word is the one that does. -/
theorem decodeEncodeAgree : Obligations.DecodeEncodeAgree :=
  ⟨fun i hwf => ⟨decode_eq_ok_iff.mpr (hasFields_encode hwf), encode_toNat_eq_or i,
    encode_toNat_lt i, encode_toInt_nonneg i⟩,
   fun _ _ h => (decode_eq_ok_iff.mp h).encode_eq⟩

/-- Settles O2: the three cases of `decode_cases`, which exclude each other. -/
theorem decodeReadsTheFieldBits : Obligations.DecodeReadsTheFieldBits := by
  intro w
  rcases decode_cases w with ⟨hres, e⟩ | ⟨hop, e⟩ | ⟨i, hi, e⟩
  · exact ⟨fun _ => ⟨_, e⟩, fun h => by omega⟩
  · exact ⟨fun _ => ⟨_, e⟩, fun _ h => by omega⟩
  · have hle := opcodeNumber_le_six i.op
    have hlisted := opcodes_getElem? i.op
    rw [hi.op] at hle hlisted
    refine ⟨fun h => ?illegal, fun _ _ => ⟨i, e, hlisted, hi.cond, hi.rT, hi.rS1, hi.rS2, hi.off,
      hi.wellFormed⟩⟩
    case illegal =>
      have := hi.reserved
      omega

/-- Settles O3: ten closed words, each decoded by evaluation. -/
theorem specWordsDecode : Obligations.SpecWordsDecode := by
  unfold Obligations.SpecWordsDecode
  decide

end Sys2Proof

namespace Sys2Proof.Machine

/-! ### Condition NEVER -/

theorem enabled_never (flag : CondMask) : enabled flag 0 = false := rfl

theorem not_enabledIn_of_cond_never {i : Instr} (h : i.cond = 0) (s : State) :
    ¬ enabledIn i s := by
  rw [enabledIn, h, enabled_never]
  exact Bool.false_ne_true

theorem settle_onlyPcAdvanced {s t : State} (h : OnlyPcAdvanced s t) :
    OnlyPcAdvanced s t.settle :=
  ⟨(settle_pc t).trans h.1, fun r hr => (settle_readReg t r).trans (h.2 r hr)⟩

/-- Settles O19: the step only advances pc and steps on the state that holds its event; as that is
not halted, the end of the step changes nothing. -/
theorem neverWordIsNoOp : Obligations.NeverWordIsNoOp := by
  refine ⟨by decide, fun s w i hinv hrun hcond => ?_⟩
  let u := s.emit { pc := s.pc, word := w, instr := i }
  have hexec : exec i u = .next u.advance := exec_of_disabled (not_enabledIn_of_cond_never hcond u)
  have hstep : step s = .next u.advance.settle := by
    rw [step_of_runsNext hrun, hexec, settleAnswer]
  have hrunning : u.advance.settle.runState = .running := by
    simp [u, hinv.not_halted hrun.1, hrun.1]
  exact ⟨_, hstep, settle_onlyPcAdvanced (advance_onlyPcAdvanced u),
    sameMemory_of_mem_eq (by simp [u]), by simp [u], by simp [u], hrunning, by simp [u]⟩

/-! ### What the arithmetic instructions do -/

/-- ADD, SUB, MUL and DIV: the instructions whose commit writes the ALU's result. -/
abbrev commitsResult (i : Instr) : Prop := i.op ≠ .load ∧ writesRegister i

theorem commitsResult_iff {i : Instr} :
    commitsResult i ↔ i.op = .add ∨ i.op = .sub ∨ i.op = .mul ∨ i.op = .div := by
  cases i <;> simp [commitsResult, writesRegister, Instr.op]

theorem exec_next_of_commitsResult {i : Instr} (h : commitsResult i) (s : State) :
    ∃ t, exec i s = .next t := by
  obtain ⟨hload, hstore, -⟩ := h
  rcases exec_answers i s with ⟨-, e⟩ | ⟨-, e⟩ | ⟨-, t, -, e⟩ | ⟨-, f, ⟨-, hop⟩, -⟩
  · exact ⟨_, e⟩
  · exact ⟨_, e⟩
  · exact ⟨t, e⟩
  · rcases hop with ⟨hop, -⟩ | ⟨hop, -⟩
    · exact absurd hop hload
    · exact absurd hop hstore

theorem Committed.eq_writeReg {i : Instr} {s t : State} (hc : Committed i s t)
    (h : commitsResult i) : t = (issued i s).writeReg i.rT (aluOf i s).1 := by
  obtain ⟨hload, hstore, hhalt⟩ := h
  rcases hc with ⟨-, -, ht⟩ | ⟨hop, -⟩ | ⟨hop, -⟩ | ⟨hop, -⟩
  · exact ht
  · exact absurd hop hload
  · exact absurd hop hstore
  · exact absurd hop hhalt

/-- The register written by a commit, beside pc (10_state.md R21, R22). -/
theorem registerWritten_issued (i : Instr) (s : State) (rT : RegNum) (v : Word) :
    RegisterWritten rT v s ((issued i s).writeReg rT v) := by
  refine ⟨readReg_writeReg_same _ rT v, readReg_zero _, fun h => ?pc, fun r hr hpc => ?other⟩
  case pc => exact (readReg_writeReg_ne _ rT 15 v h.symm).trans (issued_pc i s)
  case other => exact (readReg_writeReg_ne _ rT r v hr).trans (issued_readReg_ne i s hpc)

/-- The three cases of `ArithmeticEffect` are the three next states a meaning has: disabled, stopped
by V, committed (42_arithmetic.md R160 to R163). -/
theorem arithmeticEffect_of_exec_next {i : Instr} {s t : State} (h : commitsResult i)
    (he : exec i s = .next t) :
    ArithmeticEffect i.cond i.rT (aluOf i s).2.bits (aluOf i s).1 s t := by
  have counted : Counted s t := exec_next_counted he
  have same_memory : SameMemory s t := by
    rcases exec_next_mem_cases he with ⟨-, hmem⟩ | ⟨hop, -⟩
    · exact sameMemory_of_mem_eq hmem
    · exact absurd hop h.2.1
  refine ⟨counted, same_memory, ?_⟩
  rw [← Bool.not_eq_true]
  rcases exec_next_cases he with ⟨hd, rfl⟩ | ⟨⟨hen, hv⟩, rfl⟩ | ⟨⟨hen, hv⟩, hc⟩
  · exact ⟨fun _ => ⟨advance_flag s, advance_halted s, advance_onlyPcAdvanced s⟩,
      fun hen => absurd hen hd, fun hen => absurd hen hd⟩
  · have flag_v : (issued i s).flag = 8 := (issued_flag i s).trans (bits_eq_overflow.mpr hv)
    have halted_v : (issued i s).halted = true := by rw [issued_halted, if_pos hv]
    exact ⟨fun hd => absurd hen hd, fun _ _ => ⟨flag_v, halted_v, issued_onlyPcAdvanced i s⟩,
      fun _ hne => absurd (bits_eq_overflow.mpr hv) hne⟩
  · obtain rfl := hc.eq_writeReg h
    have halted_kept : (issued i s).halted = s.halted := by rw [issued_halted, if_neg hv]
    exact ⟨fun hd => absurd hen hd, fun _ hv8 => absurd (bits_eq_overflow.mp hv8) hv,
      fun _ _ => ⟨hc.flag, (writeReg_halted _ _ _).trans halted_kept,
        registerWritten_issued i s i.rT (aluOf i s).1⟩⟩

/-- The effect of an arithmetic instruction whose ALU result is derived from the exact result `raw`
(40_alu.md R102). -/
theorem exec_arithmetic {i : Instr} {s : State} {raw : Int} (h : commitsResult i)
    (hraw : aluOf i s = derive raw) :
    ∃ t, exec i s = .next t ∧ ArithmeticEffect i.cond i.rT (signFlag raw) (wrapW raw) s t := by
  obtain ⟨t, he⟩ := exec_next_of_commitsResult h s
  have heffect := arithmeticEffect_of_exec_next h he
  rw [hraw, derive_result, derive_flag, flagOf_bits] at heffect
  exact ⟨t, he, heffect⟩

theorem signFlag_eq_overflow {raw : Int} : signFlag raw = 8 ↔ overflows raw := by
  rw [← flagOf_bits, bits_eq_overflow, flagOf_eq_overflow]
  omega

/-! ### An enabled ADD or SUB -/

/-- An enabled ADD whose exact result fits. -/
theorem exec_add_of_fits {cond : CondMask} {rT rS1 rS2 : RegNum} {off raw : Int} {s : State}
    (hen : enabled s.flag cond = true)
    (hraw : (s.readReg rS1).toInt + ((s.readReg rS2).toInt + off) = raw)
    (hfits : ¬ overflows raw) :
    ∃ t, exec (.add cond rT rS1 rS2 off) s = .next t ∧ RegisterWritten rT (wrapW raw) s t
      ∧ t.flag = signFlag raw := by
  obtain ⟨t, he, -, -, -, -, hcommit⟩ :=
    exec_arithmetic (s := s) (i := .add cond rT rS1 rS2 off) (commitsResult_iff.mpr (.inl rfl)) rfl
  obtain ⟨hflag, -, hwritten⟩ := hcommit hen (mt signFlag_eq_overflow.mp (hraw ▸ hfits))
  exact ⟨t, he, hraw ▸ hwritten, hraw ▸ hflag⟩

/-- With register 0 as its target, nothing is committed, with V or without it. -/
theorem ArithmeticEffect.discarded {cond flag : CondMask} {v : Word} {s t : State}
    (h : ArithmeticEffect cond 0 flag v s t) (hen : enabled s.flag cond = true) :
    OnlyPcAdvanced s t ∧ t.flag = flag := by
  obtain ⟨-, -, -, hoverflow, hcommit⟩ := h
  by_cases hv : flag = 8
  · obtain ⟨hflag, -, hpc⟩ := hoverflow hen hv
    exact ⟨hpc, hflag.trans hv.symm⟩
  · obtain ⟨hflag, -, -, hzero, hpc, hother⟩ := hcommit hen hv
    refine ⟨⟨hpc (by decide), fun r hr => ?_⟩, hflag⟩
    by_cases hr0 : r = 0
    · rw [hr0, hzero, readReg_zero]
    · exact hother r hr0 hr

/-! ### The pseudo-instructions -/

theorem readReg_zero_toInt (s : State) : (s.readReg 0).toInt = 0 := rfl

theorem wrapW_toInt (w : Word) : wrapW w.toInt = w := BitVec.ofInt_toInt

theorem toInt_wrapW {raw : Int} (h : ¬ overflows raw) : (wrapW raw).toInt = raw := by
  rw [wrapW, BitVec.toInt_ofInt]
  exact Int.bmod_eq_of_le (by omega) (by omega)

theorem not_overflows_toInt (w : Word) : ¬ overflows w.toInt := by
  have hlow := BitVec.le_toInt w
  have hhigh := BitVec.toInt_lt (x := w)
  omega

section
variable {s : State} {cond : CondMask} (hen : enabled s.flag cond = true)
include hen

theorem exec_pseudoJump {off raw : Int} (hraw : s.pc.toInt + off = raw) (h : ¬ overflows raw) :
    ∃ t, exec (pseudoJump cond off) s = .next t ∧ t.pc = wrapW raw ∧ t.flag = signFlag raw := by
  have hsum : (s.readReg 0).toInt + ((s.readReg 15).toInt + off) = raw := by
    rw [readReg_zero_toInt, zero_add]
    exact hraw
  obtain ⟨t, he, ⟨hpc, -⟩, hflag⟩ := exec_add_of_fits hen hsum h
  exact ⟨t, he, hpc (by decide), hflag⟩

theorem exec_pseudoMove (rT rS : RegNum) :
    ∃ t, exec (pseudoMove cond rT rS) s = .next t ∧ RegisterWritten rT (s.readReg rS) s t
      ∧ t.flag = signFlag (s.readReg rS).toInt := by
  have hsum : (s.readReg rS).toInt + ((s.readReg 0).toInt + 0) = (s.readReg rS).toInt := by
    rw [readReg_zero_toInt, add_zero, add_zero]
  have hmove := exec_add_of_fits (rT := rT) hen hsum (not_overflows_toInt _)
  rwa [wrapW_toInt] at hmove

theorem exec_pseudoLoadi (rT : RegNum) {k : Int} (hk : offsetFits k) :
    ∃ t, exec (pseudoLoadi cond rT k) s = .next t ∧ RegisterWritten rT (wrapW k) s t
      ∧ t.flag = signFlag k := by
  have hsum : (s.readReg 0).toInt + ((s.readReg 0).toInt + k) = k := by
    rw [readReg_zero_toInt, zero_add, zero_add]
  exact exec_add_of_fits hen hsum (by omega)

theorem exec_pseudoCmp (rA rB : RegNum) :
    ∃ t, exec (pseudoCmp cond rA rB) s = .next t ∧ OnlyPcAdvanced s t
      ∧ t.flag = signFlag ((s.readReg rA).toInt - (s.readReg rB).toInt) := by
  have hdifference : aluOf (pseudoCmp cond rA rB) s
      = derive ((s.readReg rA).toInt - (s.readReg rB).toInt) := by
    change derive ((s.readReg rA).toInt - ((s.readReg rB).toInt + 0)) = _
    rw [add_zero]
  obtain ⟨t, he, heffect⟩ := exec_arithmetic (i := pseudoCmp cond rA rB)
    (commitsResult_iff.mpr (.inr (.inl rfl))) hdifference
  exact ⟨t, he, heffect.discarded hen⟩

end

theorem exec_pseudoNop (s : State) :
    ∃ t, exec pseudoNop s = .next t ∧ Counted s t ∧ SameMemory s t ∧ OnlyPcAdvanced s t
      ∧ t.flag = s.flag ∧ t.halted = s.halted := by
  obtain ⟨t, he, hcounted, hmem, hdisabled, -, -⟩ :=
    exec_arithmetic (s := s) (i := pseudoNop) (commitsResult_iff.mpr (.inl rfl)) rfl
  obtain ⟨hflag, hhalted, hpc⟩ := hdisabled (enabled_never s.flag)
  exact ⟨t, he, hcounted, hmem, hpc, hflag, hhalted⟩

/-- Settles O43: the expansions are the definitions, the effects those of the ADD or SUB they stand
for. -/
theorem pseudoInstructions : Obligations.PseudoInstructions := by
  refine ⟨fun _ _ => rfl, fun _ _ _ => rfl, fun _ _ _ => rfl, fun _ _ _ => rfl, fun _ _ _ => rfl,
    rfl, fun s cond hen => ⟨fun off hfits => ?jump, fun label _ => ?jumpTo, exec_pseudoMove hen,
      fun rT _ hk => exec_pseudoLoadi hen rT hk, exec_pseudoCmp hen, exec_pseudoNop s⟩⟩
  case jump =>
    obtain ⟨t, he, hpc, hflag⟩ := exec_pseudoJump hen rfl hfits
    exact ⟨t, he, by rw [hpc, toInt_wrapW hfits], hflag⟩
  case jumpTo =>
    obtain ⟨t, he, hpc, hflag⟩ :=
      exec_pseudoJump hen (add_sub_cancel s.pc.toInt label.toInt) (not_overflows_toInt label)
    exact ⟨t, he, hpc.trans (wrapW_toInt label), hflag⟩

end Sys2Proof.Machine

/-! PROOFS for 40_alu.md. What a derived pair is, the quotient of DIV and where it does not fit, and
the pair the ALU gives for each opcode; from these the obligations about the ALU. -/

namespace Sys2Proof.Machine

/-! ### The derived pair -/

theorem derive_wraps (raw : Int) :
    (derive raw).1 = BitVec.ofInt 32 raw ∧ (derive raw).2.bits = signFlag raw :=
  ⟨rfl, flagOf_bits raw⟩

theorem derive_overflow_iff {raw : Int} : (derive raw).2 = .overflow ↔ overflows raw := by
  rw [derive_flag, ← bits_eq_overflow, flagOf_bits, signFlag_eq_overflow]

theorem derive_exact {raw : Int} (h : (derive raw).2 ≠ .overflow) :
    (derive raw).1.toInt = raw :=
  toInt_wrapW (mt derive_overflow_iff.mpr h)

/-! ### The quotient -/

/-- The model's quotient is the one 00_scope.md R8 writes. A dividend smaller than the divisor is the
one case where the sign is lost, and there the quotient is 0. -/
theorem tdivide_eq_signedQuotient (a b : Int) : tdivide a b = signedQuotient a b := by
  have habs : (a.tdiv b).natAbs = a.natAbs / b.natAbs := Int.natAbs_tdiv a b
  rw [tdivide, signedQuotient, ← Int.sign_mul_natAbs (a.tdiv b), habs, Int.sign_tdiv]
  split
  case isTrue hlt => simp [Nat.div_eq_of_lt hlt]
  case isFalse => rfl

theorem natAbs_signedQuotient (a b : Int) :
    (signedQuotient a b).natAbs = a.natAbs / b.natAbs := by
  rw [← tdivide_eq_signedQuotient]
  exact Int.natAbs_tdiv a b

theorem signedQuotient_one (a : Int) : signedQuotient a 1 = a := by
  rw [← tdivide_eq_signedQuotient, tdivide, Int.tdiv_one]

theorem signedQuotient_neg_one (a : Int) : signedQuotient a (-1) = -a := by
  rw [← tdivide_eq_signedQuotient, tdivide, Int.tdiv_neg, Int.tdiv_one]

/-- The one quotient that does not fit (40_alu.md R107): a divisor of magnitude 2 or more at least
halves the dividend's magnitude, 1 keeps the dividend, and -1 negates it. -/
theorem overflows_signedQuotient_iff {a b : Int} (ha : ¬ overflows a) (hb : b ≠ 0) :
    overflows (signedQuotient a b) ↔ a = -2147483648 ∧ b = -1 := by
  by_cases hlarge : 2 ≤ b.natAbs
  · have hhalf : (signedQuotient a b).natAbs ≤ a.natAbs / 2 := by
      rw [natAbs_signedQuotient]
      exact Nat.div_le_div_left hlarge two_pos
    omega
  · have hunit : b = 1 ∨ b = -1 := by omega
    rcases hunit with rfl | rfl
    · rw [signedQuotient_one]
      omega
    · rw [signedQuotient_neg_one]
      omega

/-! ### The pair for each opcode -/

section
variable (in1 : Word) (in2 : Int)

theorem alu_of_sum {op : Opcode} (h : op = .add ∨ op = .load ∨ op = .store) :
    alu op in1 in2 = derive (in1.toInt + in2) := by
  rcases h with rfl | rfl | rfl <;> rfl

theorem alu_sub : alu .sub in1 in2 = derive (in1.toInt - in2) := rfl

theorem alu_mul : alu .mul in1 in2 = derive (in1.toInt * in2) := rfl

theorem alu_halt : alu .halt in1 in2 = (0, .zero) := rfl

theorem alu_div_zero : alu .div in1 0 = (0, .overflow) := rfl

theorem alu_div_of_ne_zero (h : in2 ≠ 0) :
    alu .div in1 in2 = derive (signedQuotient in1.toInt in2) := by
  rw [← tdivide_eq_signedQuotient]
  exact if_neg h

end

/-! ### The obligations -/

/-- Settles O26: each of these pairs is derived from the exact sum, difference or product. -/
theorem aluSumsAndProducts : Obligations.AluSumsAndProducts := by
  intro in1 in2
  refine ⟨fun op h => ?sum, ?difference⟩
  case sum =>
    rw [alu_of_sum in1 in2 h]
    exact derive_wraps _
  case difference =>
    rw [alu_sub, alu_mul]
    obtain ⟨hsub, hsubFlag⟩ := derive_wraps (in1.toInt - in2)
    exact ⟨hsub, hsubFlag, derive_wraps _⟩

/-- Settles O27: a zero divisor gives (0, V) itself; any other pair is derived from the quotient,
which fits unless it is that of -2^31 by -1. -/
theorem aluDivides : Obligations.AluDivides := by
  intro in1 in2
  by_cases hzero : in2 = 0
  · subst hzero
    rw [alu_div_zero]
    exact ⟨fun _ => rfl, fun hne => absurd rfl hne, fun _ => .inl rfl, fun _ => rfl⟩
  · rw [alu_div_of_ne_zero in1 in2 hzero, derive_overflow_iff,
      overflows_signedQuotient_iff (not_overflows_toInt in1) hzero]
    exact ⟨fun h => absurd h hzero, fun _ => derive_wraps _, (or_iff_right hzero).symm⟩

/-- Settles O29: without V a derived pair holds its exact result; DIV by zero always gives V. -/
theorem aluExactUnlessOverflow : Obligations.AluExactUnlessOverflow := by
  intro in1 in2 op hflag
  cases op with
  | add | load | store | sub | mul => exact derive_exact hflag
  | halt => rfl
  | div =>
    by_cases hzero : in2 = 0
    · subst hzero
      exact absurd rfl hflag
    · rw [alu_div_of_ne_zero in1 in2 hzero] at hflag ⊢
      exact derive_exact hflag

/-- Settles O28: HALT ignores its operands. -/
theorem aluHaltIsZero : Obligations.AluHaltIsZero := alu_halt

end Sys2Proof.Machine

/-! PROOFS for 41_cpu_step.md. What a fault of a step leaves, the run state and pc after a step, and
the run loop: what one pass does, and where a run can end, by one induction over its signals. -/

namespace Sys2Proof.Machine

/-! ### The faults of a meaning and of a step -/

theorem BadAccess.left_eq {i : Instr} {s : State} {f : Fault} (h : BadAccess i s f) :
    f.left = (issued i s).fail f.kind f.info := by
  rcases h with ⟨-, ⟨-, rfl⟩ | ⟨-, rfl⟩⟩ <;> rfl

theorem exec_fault_cases {i : Instr} {s : State} {f : Fault} (h : exec i s = .fault f) :
    commitsIn i s ∧ BadAccess i s f := by
  rcases exec_answers i s with ⟨-, e⟩ | ⟨-, e⟩ | ⟨-, t, -, e⟩ | ⟨hc, g, hg, e⟩
  · cases h.symm.trans e
  · cases h.symm.trans e
  · cases h.symm.trans e
  · obtain rfl := Host.Outcome.fault.inj (h.symm.trans e)
    exact ⟨hc, hg⟩

/-- A meaning goes on or faults; this model refuses no instruction. -/
theorem exec_next_or_fault (i : Instr) (s : State) :
    (∃ t, exec i s = .next t) ∨ ∃ f, exec i s = .fault f := by
  rcases exec_answers i s with ⟨-, e⟩ | ⟨-, e⟩ | ⟨-, t, -, e⟩ | ⟨-, f, -, e⟩
  · exact .inl ⟨_, e⟩
  · exact .inl ⟨_, e⟩
  · exact .inl ⟨t, e⟩
  · exact .inr ⟨f, e⟩

/-- Every fault of a step records its kind and information in the state it leaves: the state before
the step where nothing was decoded, and the state after parts 1 to 6 at a bad data access
(60_exceptions.md R203, R204). -/
theorem step_fault_cases {s : State} {f : Fault} (h : step s = .fault f) :
    ((∀ w i, ¬ runsNext s w i) ∧ f.left = s.fail f.kind f.info)
      ∨ ∃ w i, runsNext s w i ∧ commitsIn i s
          ∧ f.left = (issued i (s.emit { pc := s.pc, word := w, instr := i })).fail
              f.kind f.info := by
  rcases step_cases s with ⟨-, e⟩ | ⟨-, hread, e⟩ | ⟨-, w, err, hread, hdec, e⟩ | ⟨w, i, hrun, e⟩
  · cases h.symm.trans e
  · obtain rfl := Host.Outcome.fault.inj (h.symm.trans e)
    refine .inl ⟨fun _ _ ⟨_, hread', _⟩ => ?_, rfl⟩
    cases hread.symm.trans hread'
  · obtain rfl := Host.Outcome.fault.inj (h.symm.trans e)
    refine .inl ⟨fun w' i ⟨_, hread', hdec'⟩ => ?_, rfl⟩
    obtain rfl := Option.some.inj (hread.symm.trans hread')
    cases hdec.symm.trans hdec'
  · obtain ⟨hc, hbad⟩ := exec_fault_cases (settleAnswer_fault (e.symm.trans h))
    exact .inr ⟨w, i, hrun, (commitsIn_emit i s _).mp hc, hbad.left_eq⟩

/-- The step of a running core goes on or faults. -/
theorem step_next_or_fault {s : State} (h : s.runState = .running) :
    (∃ t, step s = .next t) ∨ ∃ f, step s = .fault f := by
  rcases step_cases s with ⟨hne, -⟩ | ⟨-, -, e⟩ | ⟨-, w, err, -, -, e⟩ | ⟨w, i, -, e⟩
  · exact absurd h hne
  · exact .inr ⟨_, e⟩
  · exact .inr ⟨_, e⟩
  · rcases exec_next_or_fault i (s.emit { pc := s.pc, word := w, instr := i }) with
      ⟨t, hexec⟩ | ⟨f, hexec⟩
    · exact .inl ⟨t.settle, by rw [e, hexec, settleAnswer]⟩
    · exact .inr ⟨f, by rw [e, hexec, settleAnswer]⟩

theorem step_fault_runState {s : State} {f : Fault} (h : step s = .fault f) :
    f.left.runState = .faulted { kind := f.kind, info := f.info } := by
  rcases step_fault_cases h with ⟨-, hleft⟩ | ⟨w, i, -, -, hleft⟩
  · rw [hleft, fail_runState]
  · rw [hleft, fail_runState]

/-- No fault comes with the V halt. -/
theorem step_fault_halted {s : State} {f : Fault} (h : step s = .fault f) :
    f.left.halted = s.halted := by
  rcases step_fault_cases h with ⟨-, hleft⟩ | ⟨w, i, -, ⟨-, hv⟩, hleft⟩
  · rw [hleft, fail_halted]
  · rw [hleft, fail_halted, issued_halted, aluOf_emit, if_neg hv, emit_halted]

/-! ### The run state after a step and after an abort -/

theorem step_next_runState {s t : State} (h : step s = .next t) :
    t.runState = if t.halted = true then .halted else .running := by
  obtain ⟨w, i, u, ⟨hrunning, -⟩, hexec, rfl⟩ := step_next_cases h
  obtain ⟨-, hrunState, -⟩ := exec_next_counted hexec
  rw [settle_runState, settle_halted, hrunState, emit_runState, hrunning]

theorem step_of_not_running {s : State} (h : s.runState ≠ .running) :
    step s = .refused (.notRunning s.runState) := by
  rcases step_cases s with ⟨-, e⟩ | ⟨hr, -⟩ | ⟨hr, -⟩ | ⟨w, i, ⟨hr, -⟩, -⟩
  · exact e
  · exact absurd hr h
  · exact absurd hr h
  · exact absurd hr h

theorem abort_of_running {s : State} (h : s.runState = .running) :
    s.abort = { s with runState := .idle } := by
  rcases abort_cases s with ⟨-, e⟩ | ⟨hne, -⟩
  · exact e
  · exact absurd h hne

theorem abort_of_not_running {s : State} (h : s.runState ≠ .running) : s.abort = s := by
  rcases abort_cases s with ⟨hr, -⟩ | ⟨-, e⟩
  · exact absurd hr h
  · exact e

theorem running_of_step_fault {s : State} {f : Fault} (h : step s = .fault f) :
    s.runState = .running := by
  by_contra hne
  cases h.symm.trans (step_of_not_running hne)

/-- Settles O6: the check `step` makes before any other. -/
theorem noStepOutsideRunning : Obligations.NoStepOutsideRunning := fun _ => step_of_not_running

/-- Settles O7: outside RUNNING an abort does nothing and a step is refused; in RUNNING a step goes
on or faults. -/
theorem runStateTransitions : Obligations.RunStateTransitions := by
  refine ⟨startRun_runState, fun s h => by rw [abort_of_running h], fun s hstopped => ?stopped,
    fun s h => ?running⟩
  case stopped =>
    have not_running : s.runState ≠ .running := by
      rcases hstopped with h | ⟨r, h⟩ <;> simp [h]
    exact ⟨abort_of_not_running not_running, by rw [step_of_not_running not_running, stateLeft]⟩
  case running =>
    rcases step_next_or_fault h with ⟨t, hstep⟩ | ⟨f, hstep⟩
    · exact .inl ⟨t, hstep, step_next_runState hstep⟩
    · exact .inr ⟨f, hstep, step_fault_runState hstep⟩

/-- Settles O5: `cycle` with its fetch and decode known; `settle` is the move to HALTED. -/
theorem stepRunsTheDecodedInstruction : Obligations.StepRunsTheDecodedInstruction := by
  intro s w i hrun _
  rw [step_of_runsNext hrun, State.emit]
  cases exec i { s with trace := { pc := s.pc, word := w, instr := i } :: s.trace } <;> rfl

/-- Settles O45: in RUNNING the invariant says that `halted` is false. -/
theorem abortLeavesTheLastStep : Obligations.AbortLeavesTheLastStep := by
  intro s hinv hrunning
  rw [abort_of_running hrunning]
  exact ⟨rfl, hinv.not_halted hrunning⟩

/-! ### What a step counts and records -/

/-- Settles O13: by what a next state counts, and what each fault leaves. -/
theorem stepCountsAndSendsOneEvent : Obligations.StepCountsAndSendsOneEvent := by
  refine ⟨fun s w i hrun => ?decoded, fun s hrunning hnone => ?stopped⟩
  case decoded =>
    rw [step_of_runsNext hrun]
    rcases exec_next_or_fault i (s.emit { pc := s.pc, word := w, instr := i }) with
      ⟨t, hexec⟩ | ⟨f, hexec⟩
    · obtain ⟨hsteps, -, htrace⟩ := exec_next_counted hexec
      rw [hexec, settleAnswer, stateLeft, settle_steps, settle_trace, hsteps, htrace]
      exact ⟨rfl, rfl⟩
    · obtain ⟨-, hbad⟩ := exec_fault_cases hexec
      rw [hexec, settleAnswer, stateLeft, hbad.left_eq, fail_trace, issued_trace]
      exact ⟨rfl, rfl⟩
  case stopped =>
    rcases step_next_or_fault hrunning with ⟨t, hstep⟩ | ⟨f, hstep⟩
    · obtain ⟨w, i, -, hrun, -⟩ := step_next_cases hstep
      exact absurd hrun (hnone w i)
    · rcases step_fault_cases hstep with ⟨-, hleft⟩ | ⟨w, i, hrun, -⟩
      · rw [hstep, stateLeft, hleft]
        exact ⟨rfl, rfl⟩
      · exact absurd hrun (hnone w i)

/-! ### pc after a step -/

section
variable {i : Instr} {s t : State} (h : Committed i s t)
include h

theorem Committed.pc_of_no_jump (hno : ¬ (writesRegister i ∧ i.rT = 15)) : t.pc = s.pc + 1 := by
  have other_register (v : Word) (hw : writesRegister i) :
      ((issued i s).writeReg i.rT v).pc = s.pc + 1 :=
    (readReg_writeReg_ne _ i.rT 15 v fun ht => hno ⟨hw, ht.symm⟩).trans (issued_pc i s)
  rcases h with ⟨-, hw, rfl⟩ | ⟨hop, v, -, rfl⟩ | ⟨-, m, -, rfl⟩ | ⟨-, rfl⟩
  · exact other_register _ hw
  · exact other_register v (by simp [writesRegister, hop])
  · exact issued_pc i s
  · exact issued_pc i s

theorem Committed.pc_of_result (ht : i.rT = 15) (hop : commitsResult i) :
    t.pc = (aluOf i s).1 := by
  rw [h.eq_writeReg hop, ht]
  exact readReg_writeReg_same _ 15 _ (by decide)

theorem Committed.pc_of_load (ht : i.rT = 15) (hop : i.op = .load) :
    s.mem.read (aluOf i s).1 = some t.pc := by
  rcases h with ⟨hne, -⟩ | ⟨-, v, hread, rfl⟩ | ⟨hop', -⟩ | ⟨hop', -⟩
  · exact absurd hop hne
  · have hpc : ((issued i s).writeReg i.rT v).pc = v := by
      rw [ht]
      exact readReg_writeReg_same _ 15 v (by decide)
    rw [hread, hpc]
  · cases hop.symm.trans hop'
  · cases hop.symm.trans hop'

end

/-- Settles O10: pc advances where nothing is committed; a commit leaves it so unless it writes
register 15. -/
theorem pcAfterStep : Obligations.PcAfterStep := by
  intro s t w i hrun hstep
  obtain ⟨u, hexec, rfl⟩ := exec_of_step_next hrun hstep
  rw [settle_pc]
  rcases exec_next_cases hexec with ⟨hd, rfl⟩ | ⟨hv, rfl⟩ | ⟨hc, hcommitted⟩
  · have not_committed : ¬ commitsIn i s := fun hc => hd hc.1
    exact ⟨fun _ => advance_pc _, fun hc => absurd hc not_committed,
      fun hc => absurd hc not_committed⟩
  · have not_committed : ¬ commitsIn i s := fun hc => hc.2 hv.2
    exact ⟨fun _ => issued_pc i _, fun hc => absurd hc not_committed,
      fun hc => absurd hc not_committed⟩
  · exact ⟨fun hno => hcommitted.pc_of_no_jump fun hjump => hno ⟨hc, hjump⟩,
      fun _ ht hop => hcommitted.pc_of_result ht (commitsResult_iff.mpr hop),
      fun _ ht hop => hcommitted.pc_of_load ht hop⟩

/-! ### The enable test -/

theorem enabled_always (flag : CondMask) : enabled flag 15 = true := rfl

theorem enabled_of_unnamed {flag cond : CondMask} (halways : cond ≠ 15) (hnever : cond ≠ 0) :
    enabled flag cond = decide (flag &&& cond ≠ 0) :=
  (if_neg halways).trans (if_neg hnever)

/-- A flag register that holds some flag needs no special case: the AND test decides. -/
theorem enabled_iff_of_flag_ne_zero {flag : CondMask} (h : flag ≠ 0) (cond : CondMask) :
    enabled flag cond = true ↔ flag &&& cond ≠ 0 := by
  by_cases halways : cond = 15
  · have flag_and_always : flag &&& 15 = flag := BitVec.and_allOnes
    rw [halways, flag_and_always]
    exact iff_of_true (enabled_always flag) h
  · by_cases hnever : cond = 0
    · have flag_and_never : flag &&& 0 = 0 := BitVec.and_zero
      rw [hnever, enabled_never, flag_and_never]
      exact iff_of_false Bool.false_ne_true (not_not.mpr rfl)
    · rw [enabled_of_unnamed halways hnever]
      exact decide_eq_true_iff

/-- Settles O30: the two named masks, and the AND test for every flag but the empty one. -/
theorem enableTest : Obligations.EnableTest := by
  intro flag cond
  refine ⟨?always, ?never, fun halways hnever => ?other, fun hlegal => ?legal,
    ?flag_always, ?flag_v⟩
  case always =>
    rintro rfl
    exact enabled_always flag
  case never =>
    rintro rfl
    exact enabled_never flag
  case other =>
    rw [enabled_of_unnamed halways hnever]
    exact decide_eq_true_iff
  case legal =>
    refine enabled_iff_of_flag_ne_zero ?_ cond
    rcases hlegal with rfl | rfl | rfl | rfl | rfl <;> decide
  case flag_always =>
    rintro rfl
    have always_and_cond : 15 &&& cond = cond := BitVec.allOnes_and
    rw [enabled_iff_of_flag_ne_zero (by decide), always_and_cond]
  case flag_v =>
    rintro rfl
    rw [enabled_iff_of_flag_ne_zero (by decide)]
    revert cond
    decide

/-- Settles O40: a disabled meaning is the pc advance. -/
theorem disabledChangesOnlyPcAndSteps : Obligations.DisabledChangesOnlyPcAndSteps := fun _ s hd =>
  ⟨s.advance, exec_of_disabled hd, ⟨advance_steps s, advance_runState s, advance_trace s⟩,
    sameMemory_of_mem_eq (advance_mem s), advance_onlyPcAdvanced s, advance_flag s,
    advance_halted s⟩

/-! ### The invariant under the host's acts and faults -/

theorem State.Inv.startRun {s : State} (h : s.Inv) (a : Word) : (s.startRun a).Inv := by
  obtain ⟨hcell, hflag, -, hmem, hlen, hdec⟩ := h
  refine ⟨?cell, ?flag, ?halted, ?mem, ?count, ?events⟩
  case cell => rwa [startRun_cell_zero]
  case flag => rwa [startRun_flag]
  case halted => simp
  case mem => rwa [startRun_mem]
  case count => rwa [startRun_trace, startRun_steps]
  case events => rwa [startRun_trace]

/-- The invariant is about the run state only in that HALTED is `halted`. -/
theorem State.Inv.withRunState {s : State} {r : RunState} (h : s.Inv)
    (hr : r = .halted ↔ s.halted = true) : State.Inv { s with runState := r } := by
  obtain ⟨hcell, hflag, -, hmem, hlen, hdec⟩ := h
  exact ⟨hcell, hflag, hr, hmem, hlen, hdec⟩

theorem State.Inv.abort {s : State} (h : s.Inv) : s.abort.Inv := by
  rcases abort_cases s with ⟨hr, e⟩ | ⟨-, e⟩
  · rw [e]
    exact h.withRunState (by simp [h.not_halted hr])
  · rwa [e]

theorem State.Inv.placeWord {s : State} (h : s.Inv) (a w : Word) : (s.placeWord a w).Inv := by
  rcases placeWord_cases s a w with ⟨m, hm, e⟩ | ⟨-, e⟩
  · obtain ⟨hcell, hflag, hhalted, hmem, hlen, hdec⟩ := h
    rw [e]
    exact ⟨hcell, hflag, hhalted, Memory.write_wf hm hmem, hlen, hdec⟩
  · rwa [e]

/-- Settles O24: one lemma for each act. -/
theorem hostActsKeepInvariant : Obligations.HostActsKeepInvariant :=
  fun _ h => ⟨h.startRun, h.abort, h.placeWord⟩

theorem State.Inv.fail {s : State} (h : s.Inv) (hs : s.halted = false) (k : FaultKind) (v : Word) :
    (s.fail k v).Inv :=
  h.withRunState (by simp [hs])

/-- Parts 1 to 6 of a step without V keep the invariant: the event is the one the counter asks
for. -/
theorem State.Inv.issued {s : State} {w : Word} {i : Instr} (h : s.Inv) (hrun : runsNext s w i)
    (hv : (aluOf i s).2 ≠ .overflow) :
    (issued i (s.emit { pc := s.pc, word := w, instr := i })).Inv := by
  obtain ⟨hcell, -, hhalted, hmem, hlen, hdec⟩ := h
  obtain ⟨-, -, hword⟩ := hrun
  refine ⟨?cell, ?flag, ?halted, ?mem, ?count, ?events⟩
  case cell =>
    rw [issued_cell_zero]
    exact hcell
  case flag =>
    rw [issued_flag]
    exact bits_legal _
  case halted =>
    rw [issued_runState, issued_halted, aluOf_emit, if_neg hv]
    exact hhalted
  case mem =>
    rw [issued_mem]
    exact hmem
  case count => simp [hlen]
  case events =>
    rw [issued_trace, emit_trace]
    exact List.forall_mem_cons.mpr ⟨hword, hdec⟩

theorem State.Inv.step_fault {s : State} {f : Fault} (h : s.Inv) (hstep : step s = .fault f) :
    f.left.Inv := by
  have left_halted : f.left.halted = false :=
    (step_fault_halted hstep).trans (h.not_halted (running_of_step_fault hstep))
  rcases step_fault_cases hstep with ⟨-, hleft⟩ | ⟨w, i, hrun, ⟨-, hv⟩, hleft⟩
  · rw [hleft] at left_halted ⊢
    exact h.fail left_halted _ _
  · rw [hleft] at left_halted ⊢
    exact (h.issued hrun hv).fail left_halted _ _

/-! ### One pass of the run loop -/

/-- What the loop makes of a step's answer, `next` being the rest of the loop (41_cpu_step.md
R131). -/
def afterStep (next : State → RunEnd) : Answer → RunEnd
  | .next t => if t.halted then .halted t else next t
  | .fault f => .faulted f
  | .refused r => .refused r

section
variable (single : Bool) (sig : HostSignal) (rest : List HostSignal) (s : State)

theorem runLoop_nil : runLoop single [] s = .unfinished s := rfl

theorem runLoop_abort : runLoop single (.abort :: rest) s = .aborted s.abort := rfl

/-- The single-step gate. -/
theorem runLoop_wait : runLoop true (.wait :: rest) s = runLoop true rest s := rfl

theorem runLoop_step (habort : sig ≠ .abort) (hgate : ¬ (single = true ∧ sig = .wait)) :
    runLoop single (sig :: rest) s = afterStep (runLoop single rest) (step s) := by
  cases sig with
  | abort => exact absurd rfl habort
  | go | wait =>
    rw [runLoop, if_neg hgate]
    · cases step s <;> rfl
    · exact habort

/-- Everything one pass of the loop can do. -/
theorem runLoop_cons_cases :
    (sig = .abort ∧ runLoop single (sig :: rest) s = .aborted s.abort)
      ∨ (single = true ∧ sig = .wait ∧ runLoop single (sig :: rest) s = runLoop single rest s)
      ∨ runLoop single (sig :: rest) s = afterStep (runLoop single rest) (step s) := by
  by_cases habort : sig = .abort
  · subst habort
    exact .inl ⟨rfl, runLoop_abort single rest s⟩
  · by_cases hgate : single = true ∧ sig = .wait
    · obtain ⟨rfl, rfl⟩ := hgate
      exact .inr (.inl ⟨rfl, rfl, runLoop_wait rest s⟩)
    · exact .inr (.inr (runLoop_step single sig rest s habort hgate))

end

/-! ### Where a run can end -/

/-- The run ended in a state with `P`, its signals run out, or one act after such a state: a step
that halted, faulted or was refused, or the host's abort. -/
def RunEnd.From (P : State → Prop) : RunEnd → Prop
  | .halted t => t.halted = true ∧ ∃ u, P u ∧ step u = .next t
  | .faulted f => ∃ u, P u ∧ step u = .fault f
  | .aborted t => ∃ u, P u ∧ t = u.abort
  | .unfinished t => P t
  | .refused r => ∃ u, P u ∧ step u = .refused r

theorem afterStep_from {P : State → Prop} {next : State → RunEnd} {s : State} (h : P s)
    (hnext : ∀ t, step s = .next t → t.halted = false → (next t).From P) :
    (afterStep next (step s)).From P := by
  cases hstep : step s with
  | next t =>
    rw [afterStep]
    split
    case isTrue hhalted => exact ⟨hhalted, s, h, hstep⟩
    case isFalse hgoes => exact hnext t hstep (Bool.eq_false_of_not_eq_true hgoes)
  | fault f => exact ⟨s, h, hstep⟩
  | refused r => exact ⟨s, h, hstep⟩

/-- What holds at the start of the loop and is kept by each step that does not halt holds wherever
the loop ends: the induction over the signals, once. -/
theorem runLoop_from {P : State → Prop}
    (hkeep : ∀ s t, P s → step s = .next t → t.halted = false → P t)
    (single : Bool) (signals : List HostSignal) {s : State} (h : P s) :
    (runLoop single signals s).From P := by
  induction signals generalizing s with
  | nil => exact h
  | cons sig rest ih =>
    rcases runLoop_cons_cases single sig rest s with ⟨-, e⟩ | ⟨-, -, e⟩ | e
    · rw [e]
      exact ⟨s, h, rfl⟩
    · rw [e]
      exact ih h
    · rw [e]
      exact afterStep_from h fun t hstep hgoes => ih (hkeep s t h hstep hgoes)

/-- The core is in a run: RUNNING, and not halted. -/
abbrev InRun (s : State) : Prop := s.runState = .running ∧ s.halted = false

theorem inRun_of_step_next {s t : State} (h : step s = .next t) (hgoes : t.halted = false) :
    InRun t := by
  have hrunState := step_next_runState h
  rw [hgoes] at hrunState
  exact ⟨hrunState, hgoes⟩

theorem run_from_inRun (a : Word) (single : Bool) (signals : List HostSignal) (s : State) :
    (run a single signals s).From InRun :=
  runLoop_from (fun _ _ _ => inRun_of_step_next) single signals
    ⟨startRun_runState s a, startRun_halted s a⟩

/-- The last step, the last fault and the abort of a run keep the invariant. -/
theorem RunEnd.From.inv {e : RunEnd} {t : State} (h : e.From State.Inv) (he : e.state? = some t) :
    t.Inv := by
  cases e with
  | halted u =>
    obtain rfl := Option.some.inj he
    obtain ⟨-, v, hv, hstep⟩ := h
    exact stepKeepsInvariant v u hv hstep
  | faulted f =>
    obtain rfl := Option.some.inj he
    obtain ⟨v, hv, hstep⟩ := h
    exact hv.step_fault hstep
  | aborted u =>
    obtain rfl := Option.some.inj he
    obtain ⟨v, hv, rfl⟩ := h
    exact hv.abort
  | unfinished u =>
    obtain rfl := Option.some.inj he
    exact h
  | refused r => cases he

/-- Settles O25: the invariant holds at the start of the run, each step keeps it, and so does each
way to end. -/
theorem runKeepsInvariant : Obligations.RunKeepsInvariant := by
  intro s t a single signals hinv hend
  have hfrom : (run a single signals s).From State.Inv :=
    runLoop_from (fun u v hu hstep _ => stepKeepsInvariant u v hu hstep) single signals
      (hinv.startRun a)
  exact hfrom.inv hend

/-- Settles O46: every step of a run is taken in RUNNING, where `step` goes on or faults. -/
theorem runIsNeverRefused : Obligations.RunIsNeverRefused := by
  intro s a single signals r hrun
  have hfrom := run_from_inRun a single signals s
  rw [hrun] at hfrom
  obtain ⟨u, ⟨hrunning, -⟩, hstep⟩ := hfrom
  rcases step_next_or_fault hrunning with ⟨t, e⟩ | ⟨f, e⟩
  · cases hstep.symm.trans e
  · cases hstep.symm.trans e

/-- Settles O47: each end is one act after a state in the run. -/
theorem runEndStates : Obligations.RunEndStates := by
  intro s t f a single signals
  have hfrom := run_from_inRun a single signals s
  refine ⟨fun e => ?halted, fun e => ?aborted, fun e => ?unfinished, fun e => ?faulted⟩
  case halted =>
    rw [e] at hfrom
    obtain ⟨hhalted, u, -, hstep⟩ := hfrom
    exact ⟨hhalted, by rw [step_next_runState hstep, if_pos hhalted]⟩
  case aborted =>
    rw [e] at hfrom
    obtain ⟨u, ⟨hrunning, hhalted⟩, rfl⟩ := hfrom
    rw [abort_of_running hrunning]
    exact ⟨hhalted, rfl⟩
  case unfinished =>
    rw [e] at hfrom
    exact hfrom.symm
  case faulted =>
    rw [e] at hfrom
    obtain ⟨u, ⟨-, hhalted⟩, hstep⟩ := hfrom
    exact ⟨(step_fault_halted hstep).trans hhalted, step_fault_runState hstep⟩

/-! ### Two runs beside each other -/

/-- The loop with the gate is the loop without it under the signals less the waits. -/
theorem runLoop_single (signals : List HostSignal) :
    runLoop true signals = runLoop false (signals.filter (· ≠ .wait)) := by
  induction signals with
  | nil => rfl
  | cons sig rest ih =>
    funext s
    cases sig with
    | abort => rfl
    | wait => exact congrFun ih s
    | go =>
      have kept : (HostSignal.go :: rest).filter (· ≠ .wait) = .go :: rest.filter (· ≠ .wait) := rfl
      rw [kept, runLoop_step true .go rest s (by decide) (by decide),
        runLoop_step false .go _ s (by decide) (by decide), ih]

/-- Settles O48: `runLoop_single` from the start of the run. -/
theorem singleStepGateChangesNothing : Obligations.SingleStepGateChangesNothing :=
  fun s a signals => congrFun (runLoop_single signals) (s.startRun a)

/-- A run that was not finished goes on as `next` says; any other end stands. -/
def RunEnd.resume (next : State → RunEnd) : RunEnd → RunEnd
  | .unfinished t => next t
  | ended => ended

theorem resume_afterStep (next more : State → RunEnd) (a : Answer) :
    (afterStep next a).resume more = afterStep (fun t => (next t).resume more) a := by
  cases a with
  | next t =>
    rw [afterStep, afterStep]
    split <;> rfl
  | fault f => rfl
  | refused r => rfl

theorem runLoop_append (single : Bool) (signals more : List HostSignal) (s : State) :
    runLoop single (signals ++ more) s
      = (runLoop single signals s).resume (runLoop single more) := by
  induction signals generalizing s with
  | nil => rfl
  | cons sig rest ih =>
    have ih' : runLoop single (rest ++ more)
        = fun t => (runLoop single rest t).resume (runLoop single more) := funext ih
    by_cases habort : sig = .abort
    · subst habort
      rfl
    · by_cases hgate : single = true ∧ sig = .wait
      · obtain ⟨rfl, rfl⟩ := hgate
        exact ih s
      · rw [List.cons_append, runLoop_step single sig _ s habort hgate,
          runLoop_step single sig rest s habort hgate, resume_afterStep, ih']

/-- Settles O49: `runLoop_append`, whose `resume` is the statement's case split on the end. -/
theorem moreFuelContinuesTheRun : Obligations.MoreFuelContinuesTheRun := by
  intro s single signals more
  rw [runLoop_append]
  cases runLoop single signals s <;> rfl

/-! ### The status port -/

theorem reportOf_eq_some {r : RunState} {rep : FaultReport} :
    reportOf r = some rep ↔ r = .faulted rep := by
  cases r <;> simp [reportOf]

/-- Settles O51: each field of the status is the state's own. -/
theorem hostStatusShows : Obligations.HostStatusShows := fun _ r =>
  ⟨Vector.getElem_ofFn r.isLt, rfl, rfl, rfl, rfl, fun _ => reportOf_eq_some⟩

end Sys2Proof.Machine

/-! PROOFS for 42_arithmetic.md. ADD, SUB and MUL by `exec_arithmetic`, their pair being derived from
the exact result; DIV by its pair for every divisor, zero among them. -/

namespace Sys2Proof.Machine

/-! ### ADD, SUB and MUL -/

/-- Settles O33: the pair of ADD is derived from the exact sum. -/
theorem addEffect : Obligations.AddEffect := by
  intro cond rT rS1 rS2 off s raw
  have hraw : aluOf (.add cond rT rS1 rS2 off) s = derive raw := alu_of_sum _ _ (.inl rfl)
  exact ⟨rfl, exec_arithmetic (commitsResult_iff.mpr (.inl rfl)) hraw⟩

/-- Settles O34: the pair of SUB is derived from the exact difference. -/
theorem subEffect : Obligations.SubEffect := by
  intro cond rT rS1 rS2 off s raw
  have hraw : aluOf (.sub cond rT rS1 rS2 off) s = derive raw := alu_sub _ _
  exact ⟨rfl, exec_arithmetic (commitsResult_iff.mpr (.inr (.inl rfl))) hraw⟩

/-- Settles O35: the pair of MUL is derived from the exact product. -/
theorem mulEffect : Obligations.MulEffect := by
  intro cond rT rS1 rS2 off s raw
  have hraw : aluOf (.mul cond rT rS1 rS2 off) s = derive raw := alu_mul _ _
  exact ⟨rfl, exec_arithmetic (commitsResult_iff.mpr (.inr (.inr (.inl rfl)))) hraw⟩

/-! ### DIV -/

theorem signedQuotient_zero (a : Int) : signedQuotient a 0 = 0 := by
  rw [← tdivide_eq_signedQuotient, tdivide, Int.tdiv_zero]

/-- The pair of DIV for every divisor. The 0 the ALU gives beside V for a zero divisor is the formula
of 00_scope.md R8 at 0, so the result needs no case of its own; only the flag does. -/
theorem alu_div_wraps (in1 : Word) (in2 : Int) :
    (alu .div in1 in2).1 = BitVec.ofInt 32 (signedQuotient in1.toInt in2)
      ∧ (alu .div in1 in2).2.bits
        = if in2 = 0 then 8 else signFlag (signedQuotient in1.toInt in2) := by
  by_cases hzero : in2 = 0
  · subst hzero
    rw [alu_div_zero, signedQuotient_zero]
    exact ⟨rfl, rfl⟩
  · rw [alu_div_of_ne_zero in1 in2 hzero, if_neg hzero]
    exact derive_wraps _

/-- Settles O36: DIV answers a next state, whose flag and result are the pair `alu_div_wraps`
gives. -/
theorem divEffect : Obligations.DivEffect := by
  intro cond rT rS1 rS2 off s divisor quotient
  have hdiv : commitsResult (.div cond rT rS1 rS2 off) :=
    commitsResult_iff.mpr (.inr (.inr (.inr rfl)))
  obtain ⟨t, he⟩ := exec_next_of_commitsResult hdiv s
  have heffect := arithmeticEffect_of_exec_next hdiv he
  obtain ⟨hresult, hflag⟩ : (aluOf (.div cond rT rS1 rS2 off) s).1 = BitVec.ofInt 32 quotient
      ∧ (aluOf (.div cond rT rS1 rS2 off) s).2.bits
        = if divisor = 0 then 8 else signFlag quotient := alu_div_wraps _ _
  rw [hresult, hflag] at heffect
  exact ⟨rfl, t, he, heffect⟩

end Sys2Proof.Machine

/-! PROOFS for 43_memory_ops.md. The three ends of an enabled data access, each said once for LOAD
and STORE: stopped by V, committed at a valid address, and the fault at any other; then what each of
the two commits leaves. -/

namespace Sys2Proof.Machine

/-! ### The address -/

section
variable {i : Instr} {s : State} {raw : Int} (hraw : aluOf i s = derive raw)
include hraw

theorem overflowsIn_of_derive (hen : enabledIn i s) (h : overflows raw) : overflowsIn i s :=
  ⟨hen, by rwa [hraw, derive_overflow_iff]⟩

theorem commitsIn_of_derive (hen : enabledIn i s) (h : ¬ overflows raw) : commitsIn i s :=
  ⟨hen, by rwa [hraw, ne_eq, derive_overflow_iff]⟩

/-- An address sum that does not wrap is checked as it stands (20_memory.md R50). -/
theorem aluOf_valid_iff (h : ¬ overflows raw) :
    s.mem.valid (aluOf i s).1 ↔ 0 ≤ raw ∧ raw < s.mem.size := by
  rw [hraw, derive_result, Memory.valid, toInt_wrapW h]

end

/-! ### The ends of an enabled data access -/

section
variable {i : Instr} {s : State}

/-- V ends every instruction alike: the flag, the halt and the pc advance, and no commit
(41_cpu_step.md R139, R142). -/
theorem exec_overflow_effect (h : overflowsIn i s) :
    ∃ t, exec i s = .next t ∧ Counted s t ∧ SameMemory s t ∧ OnlyPcAdvanced s t
      ∧ t.flag = 8 ∧ t.halted = true := by
  have flag_v : (issued i s).flag = 8 := (issued_flag i s).trans (bits_eq_overflow.mpr h.2)
  have halted_v : (issued i s).halted = true := by rw [issued_halted, if_pos h.2]
  exact ⟨issued i s, exec_of_overflow h, ⟨issued_steps i s, issued_runState i s, issued_trace i s⟩,
    sameMemory_of_mem_eq (issued_mem i s), issued_onlyPcAdvanced i s, flag_v, halted_v⟩

/-- A commit at a valid address goes through, and only HALT's writes `halted`. -/
theorem exec_committed_of_valid (hop : i.op ≠ .halt) (hc : commitsIn i s)
    (hv : s.mem.valid (aluOf i s).1) :
    ∃ t, exec i s = .next t ∧ Committed i s t ∧ t.halted = s.halted := by
  rcases exec_answers i s with ⟨hd, -⟩ | ⟨hov, -⟩ | ⟨-, t, ht, e⟩ | ⟨-, f, ⟨hinvalid, -⟩, -⟩
  · exact absurd hc.1 hd
  · exact absurd hov.2 hc.2
  · exact ⟨t, e, ht, Bool.eq_iff_iff.mpr ((ht.halted_iff hc.2).trans (or_iff_left hop))⟩
  · exact absurd hv hinvalid

/-- The state a bad access leaves: parts 1 to 6 of the step and the run's end in FAULTED
(60_exceptions.md R203). -/
theorem BadAccess.leaves {f : Fault} (h : BadAccess i s f) (hc : commitsIn i s) :
    LeftByBadAccess f.kind f.info (aluOf i s).2.bits s f.left ∧ f.left.trace = s.trace := by
  have halted_kept : (issued i s).halted = s.halted := by rw [issued_halted, if_neg hc.2]
  rw [h.left_eq]
  exact ⟨⟨issued_steps i s, issued_flag i s, halted_kept, issued_onlyPcAdvanced i s,
    sameMemory_of_mem_eq (issued_mem i s), rfl⟩, issued_trace i s⟩

/-- A LOAD or STORE that would commit to an address out of range faults. -/
theorem exec_badAccess_of_invalid (hop : i.op = .load ∨ i.op = .store) (hc : commitsIn i s)
    (hv : ¬ s.mem.valid (aluOf i s).1) : ∃ f, exec i s = .fault f ∧ BadAccess i s f := by
  rcases exec_answers i s with ⟨hd, -⟩ | ⟨hov, -⟩ | ⟨-, t, ht, -⟩ | ⟨-, f, hf, e⟩
  · exact absurd hc.1 hd
  · exact absurd hov.2 hc.2
  · exact absurd (ht.valid hop) hv
  · exact ⟨f, e, hf⟩

end

section
variable {i : Instr} {s : State} {raw : Int} (hraw : aluOf i s = derive raw)
  (hen : enabledIn i s) (hfits : ¬ overflows raw)
include hraw hen hfits

theorem exec_of_address_in_range (hop : i.op ≠ .halt) (hlow : 0 ≤ raw) (hhigh : raw < s.mem.size) :
    ∃ t, exec i s = .next t ∧ Committed i s t ∧ t.flag = signFlag raw ∧ t.halted = s.halted := by
  obtain ⟨t, hexec, ht, hhalted⟩ :=
    exec_committed_of_valid hop (commitsIn_of_derive hraw hen hfits)
      ((aluOf_valid_iff hraw hfits).mpr ⟨hlow, hhigh⟩)
  have hflag : t.flag = signFlag raw := by rw [ht.flag, hraw, derive_flag, flagOf_bits]
  exact ⟨t, hexec, ht, hflag, hhalted⟩

theorem exec_of_address_out_of_range (hop : i.op = .load ∨ i.op = .store)
    (hout : raw < 0 ∨ s.mem.size ≤ raw) :
    ∃ f, exec i s = .fault f ∧ BadAccess i s f
      ∧ LeftByBadAccess f.kind f.info (signFlag raw) s f.left ∧ f.left.trace = s.trace := by
  have hc : commitsIn i s := commitsIn_of_derive hraw hen hfits
  have hinvalid : ¬ s.mem.valid (aluOf i s).1 := by
    rw [aluOf_valid_iff hraw hfits]
    omega
  obtain ⟨f, hexec, hbad⟩ := exec_badAccess_of_invalid hop hc hinvalid
  have hleaves := hbad.leaves hc
  rw [hraw, derive_flag, flagOf_bits] at hleaves
  exact ⟨f, hexec, hbad, hleaves⟩

end

/-! ### What the commit of a LOAD and of a STORE leaves -/

section
variable {i : Instr} {s t : State} (h : Committed i s t)
include h

theorem Committed.sameMemory_of_not_store (hop : i.op ≠ .store) : SameMemory s t := by
  rcases h.mem_cases with ⟨-, hmem⟩ | ⟨hstore, -⟩
  · exact sameMemory_of_mem_eq hmem
  · exact absurd hstore hop

/-- A committed LOAD writes the word its address reads (43_memory_ops.md R180). -/
theorem Committed.registerWritten_of_load (hop : i.op = .load) :
    ∃ v, s.mem.read (aluOf i s).1 = some v ∧ RegisterWritten i.rT v s t := by
  rcases h with ⟨hne, -⟩ | ⟨-, v, hread, rfl⟩ | ⟨hop', -⟩ | ⟨hop', -⟩
  · exact absurd hop hne
  · exact ⟨v, hread, registerWritten_issued i s i.rT v⟩
  · cases hop.symm.trans hop'
  · cases hop.symm.trans hop'

/-- The write of a committed STORE; its data is read after the pc advance (43_memory_ops.md R181). -/
theorem Committed.write_of_store (hop : i.op = .store) :
    s.mem.write (aluOf i s).1 (if i.rT = 15 then s.pc + 1 else s.readReg i.rT) = some t.mem := by
  rcases h.mem_cases with ⟨hne, -⟩ | ⟨-, hwrite⟩
  · exact absurd hop hne
  · rwa [issued_readReg] at hwrite

theorem Committed.onlyPcAdvanced_of_store (hop : i.op = .store) : OnlyPcAdvanced s t := by
  rcases h with ⟨-, ⟨hne, -⟩, -⟩ | ⟨hop', -⟩ | ⟨-, m, -, rfl⟩ | ⟨hop', -⟩
  · exact absurd hop hne
  · cases hop.symm.trans hop'
  · exact issued_onlyPcAdvanced i s
  · cases hop.symm.trans hop'

end

/-! ### The obligations -/

/-- Settles O38: the disabled LOAD and the three ends of an enabled one; at a valid address the
commit writes the word read there. -/
theorem loadEffect : Obligations.LoadEffect := by
  intro cond rT rS1 rS2 off s raw a i
  have hraw : aluOf i s = derive raw := alu_of_sum _ _ (.inr (.inl rfl))
  have haddr : (aluOf i s).1 = a := congrArg Prod.fst hraw
  refine ⟨rfl, fun hd => ?disabled, fun hen hov => ?overflow, fun hen hfits hlow hhigh => ?inRange,
    fun hen hfits hout => ?outOfRange⟩
  case disabled => exact disabledChangesOnlyPcAndSteps i s (Bool.eq_false_iff.mp hd)
  case overflow => exact exec_overflow_effect (overflowsIn_of_derive hraw hen hov)
  case inRange =>
    obtain ⟨t, hexec, ht, hflag, hhalted⟩ :=
      exec_of_address_in_range hraw hen hfits nofun hlow hhigh
    obtain ⟨v, hread, hwritten⟩ := ht.registerWritten_of_load rfl
    rw [haddr] at hread
    exact ⟨t, v, hexec, hread, ht.counted, ht.sameMemory_of_not_store nofun, hwritten, hflag,
      hhalted⟩
  case outOfRange =>
    obtain ⟨f, hexec, ⟨-, ⟨-, rfl⟩ | ⟨hop, -⟩⟩, hleaves⟩ :=
      exec_of_address_out_of_range hraw hen hfits (.inl rfl) hout
    · rw [haddr] at hexec hleaves
      exact ⟨_, hexec, hleaves⟩
    · cases hop

/-- Settles O39: the disabled STORE and the three ends of an enabled one; at a valid address the
commit leaves the memory its write answers and no register but pc changed. -/
theorem storeEffect : Obligations.StoreEffect := by
  intro cond rT rS1 rS2 off s raw a i
  have hraw : aluOf i s = derive raw := alu_of_sum _ _ (.inr (.inr rfl))
  have haddr : (aluOf i s).1 = a := congrArg Prod.fst hraw
  refine ⟨rfl, fun hd => ?disabled, fun hen hov => ?overflow, fun hen hfits hlow hhigh => ?inRange,
    fun hen hfits hout => ?outOfRange⟩
  case disabled => exact disabledChangesOnlyPcAndSteps i s (Bool.eq_false_iff.mp hd)
  case overflow => exact exec_overflow_effect (overflowsIn_of_derive hraw hen hov)
  case inRange =>
    obtain ⟨t, hexec, ht, hflag, hhalted⟩ :=
      exec_of_address_in_range hraw hen hfits nofun hlow hhigh
    have hwrite := ht.write_of_store rfl
    rw [haddr] at hwrite
    exact ⟨t, hexec, ht.counted, sameMemoryBut_of_write hwrite, ht.onlyPcAdvanced_of_store rfl,
      hflag, hhalted, Memory.read_write_same hwrite⟩
  case outOfRange =>
    obtain ⟨f, hexec, ⟨-, ⟨hop, -⟩ | ⟨-, rfl⟩⟩, hleaves⟩ :=
      exec_of_address_out_of_range hraw hen hfits (.inr rfl) hout
    · cases hop
    · rw [haddr] at hexec hleaves
      exact ⟨_, hexec, hleaves⟩

end Sys2Proof.Machine

/-! PROOFS for 44_control.md. HALT and the conditional branch as meanings; a jump as the step that
makes it and the fetch that follows. -/

namespace Sys2Proof.Machine

/-! ### A commit that no bad access stops -/

section
variable {i : Instr} {s : State}

/-- Only a data access out of range keeps an enabled instruction without V from its commit
(41_cpu_step.md R141, R142). -/
theorem exec_committed_of_accessible (hc : commitsIn i s)
    (haccess : i.op = .load ∨ i.op = .store → s.mem.valid (aluOf i s).1) :
    ∃ t, exec i s = .next t ∧ Committed i s t := by
  rcases exec_answers i s with ⟨hd, -⟩ | ⟨hov, -⟩ | ⟨-, t, ht, e⟩ | ⟨-, f, ⟨hinvalid, hop⟩, -⟩
  · exact absurd hc.1 hd
  · exact absurd hov.2 hc.2
  · exact ⟨t, e, ht⟩
  · exact absurd (haccess (hop.imp And.left And.left)) hinvalid

/-! ### HALT -/

theorem aluOf_of_halt (hop : i.op = .halt) : aluOf i s = (0, .zero) := by
  rw [aluOf, hop, alu_halt]

theorem commitsIn_of_halt (hop : i.op = .halt) (hen : enabledIn i s) : commitsIn i s :=
  ⟨hen, by rw [aluOf_of_halt hop]; decide⟩

theorem Committed.onlyPcAdvanced_of_halt {t : State} (h : Committed i s t) (hop : i.op = .halt) :
    OnlyPcAdvanced s t := by
  rcases h with ⟨-, ⟨-, hne⟩, -⟩ | ⟨hop', -⟩ | ⟨hop', -⟩ | ⟨-, rfl⟩
  · exact absurd hop hne
  · cases hop.symm.trans hop'
  · cases hop.symm.trans hop'
  · exact issued_onlyPcAdvanced i s

/-- HALT cannot produce V and accesses no memory, so when enabled it always commits
(44_control.md R190). -/
theorem exec_halt_of_enabled (hop : i.op = .halt) (hen : enabledIn i s) :
    ∃ t, exec i s = .next t ∧ Counted s t ∧ SameMemory s t ∧ OnlyPcAdvanced s t
      ∧ t.flag = 2 ∧ t.halted = true := by
  have hc : commitsIn i s := commitsIn_of_halt hop hen
  obtain ⟨t, hexec, ht⟩ := exec_committed_of_accessible hc (by simp [hop])
  have flag_z : t.flag = 2 := by rw [ht.flag, aluOf_of_halt hop, AluFlag.bits]
  exact ⟨t, hexec, ht.counted, ht.sameMemory_of_not_store (by simp [hop]),
    ht.onlyPcAdvanced_of_halt hop, flag_z, (ht.halted_iff hc.2).mpr (.inr hop)⟩

end

/-- Settles O37: the enabled HALT commits; the disabled one is the pc advance. -/
theorem haltEffect : Obligations.HaltEffect := by
  intro cond rT rS1 rS2 off s
  refine ⟨rfl, ?_⟩
  by_cases hen : enabledIn (.halt cond rT rS1 rS2 off) s
  · obtain ⟨t, hexec, hcounted, hmem, hpc, heffect⟩ := exec_halt_of_enabled rfl hen
    exact ⟨t, hexec, hcounted, hmem, hpc, fun _ => heffect,
      fun hd => absurd hen (Bool.eq_false_iff.mp hd)⟩
  · obtain ⟨t, hexec, hcounted, hmem, hpc, hkept⟩ := disabledChangesOnlyPcAndSteps _ s hen
    exact ⟨t, hexec, hcounted, hmem, hpc, fun h => absurd h hen, fun _ => hkept⟩

/-! ### The conditional branch -/

/-- Settles O42: taken, it is an ADD that writes register 15; not taken, the pc advance. -/
theorem conditionalBranch : Obligations.ConditionalBranch := by
  refine fun cond off s => ⟨fun hen hfits => ?taken, fun hd => ?notTaken⟩
  case taken =>
    have hsum : (s.readReg 0).toInt + ((s.readReg 15).toInt + off) = s.pc.toInt + off := by
      rw [readReg_zero_toInt, zero_add, State.pc]
    obtain ⟨t, hexec, ⟨hpc, -, -, hother⟩, hflag⟩ :=
      exec_add_of_fits (rT := 15) hen hsum hfits
    have hpc_target : t.pc = wrapW (s.pc.toInt + off) := hpc (by decide)
    exact ⟨t, hexec, by rw [hpc_target, toInt_wrapW hfits], hflag, fun r hr => hother r hr hr⟩
  case notTaken =>
    obtain ⟨t, hexec, -, -, ⟨hpc, hother⟩, hflag, -⟩ :=
      disabledChangesOnlyPcAndSteps (.add cond 15 0 15 off) s (Bool.eq_false_iff.mp hd)
    exact ⟨t, hexec, hpc, hflag, hother⟩

/-! ### A jump and the fetch after it -/

/-- What a commit of `i` in `s` writes to its register: the ALU's result, or for LOAD the word at
that address (41_cpu_step.md R141). -/
def WritesValue (i : Instr) (s : State) (v : Word) : Prop :=
  (commitsResult i ∧ v = (aluOf i s).1) ∨ (i.op = .load ∧ s.mem.read (aluOf i s).1 = some v)

section
variable {i : Instr} {s : State} {v : Word} (h : WritesValue i s v)
include h

theorem WritesValue.writesRegister : writesRegister i := by
  rcases h with ⟨hresult, -⟩ | ⟨hop, -⟩
  · exact hresult.2
  · exact ⟨by simp [hop], by simp [hop]⟩

theorem WritesValue.accessible (hop : i.op = .load ∨ i.op = .store) :
    s.mem.valid (aluOf i s).1 := by
  rcases h with ⟨⟨hload, hstore, -⟩, -⟩ | ⟨-, hread⟩
  · exact absurd hop (not_or.mpr ⟨hload, hstore⟩)
  · exact (Memory.read_isSome_iff s.mem _).mp (by rw [hread, Option.isSome_some])

theorem WritesValue.pc_eq (hrT : i.rT = 15) {t : State} (ht : Committed i s t) : t.pc = v := by
  rcases h with ⟨hresult, rfl⟩ | ⟨hop, hread⟩
  · exact ht.pc_of_result hrT hresult
  · exact Option.some.inj ((ht.pc_of_load hrT hop).symm.trans hread)

/-- A committed write of register 15 is a jump: it leaves pc the value written and stops nothing
(44_control.md R191). -/
theorem exec_jump (hc : commitsIn i s) (hrT : i.rT = 15) :
    ∃ t, exec i s = .next t ∧ t.pc = v ∧ t.mem = s.mem ∧ t.halted = s.halted
      ∧ t.runState = s.runState := by
  obtain ⟨hstore, hhalt⟩ := h.writesRegister
  obtain ⟨t, hexec, ht⟩ := exec_committed_of_accessible hc h.accessible
  have hmem : t.mem = s.mem := by
    rcases ht.mem_cases with ⟨-, hmem⟩ | ⟨hop, -⟩
    · exact hmem
    · exact absurd hop hstore
  have hhalted : t.halted = s.halted :=
    Bool.eq_iff_iff.mpr ((ht.halted_iff hc.2).trans (or_iff_left hhalt))
  exact ⟨t, hexec, h.pc_eq hrT ht, hmem, hhalted, ht.runState⟩

end

theorem settle_of_not_halted {s : State} (h : s.halted = false) : s.settle = s := by
  simp [State.settle, h]

/-- The fetch of a running core at an address its memory does not have (41_cpu_step.md R134). -/
theorem step_of_invalid_pc {s : State} (hrunning : s.runState = .running)
    (hinvalid : ¬ s.mem.valid s.pc) :
    step s = .fault (.fetchOutOfRange s.pc (s.fail .fetchOutOfRange s.pc)) := by
  have hnone : s.mem.read s.pc = none := Memory.read_eq_none.mpr hinvalid
  rcases step_cases s with ⟨hne, -⟩ | ⟨-, -, e⟩ | ⟨-, w, _, hread, -⟩ | ⟨w, i, ⟨-, hread, -⟩, -⟩
  · exact absurd hrunning hne
  · exact e
  · cases hnone.symm.trans hread
  · cases hnone.symm.trans hread

/-- The step that makes a jump: as `exec_jump`, and its end changes nothing more. -/
theorem step_jump {s : State} {w v : Word} {i : Instr} (hinv : s.Inv) (hrun : runsNext s w i)
    (hc : commitsIn i s) (hrT : i.rT = 15) (h : WritesValue i s v) :
    ∃ t, step s = .next t ∧ t.pc = v ∧ t.runState = .running ∧ t.mem = s.mem := by
  obtain ⟨t, hexec, hpc, hmem, hhalted, hrunState⟩ :=
    exec_jump (s := s.emit { pc := s.pc, word := w, instr := i }) h
      ((commitsIn_emit i s _).mpr hc) hrT
  have not_halted : t.halted = false := hhalted.trans (hinv.not_halted hrun.1)
  have hstep : step s = .next t := by
    rw [step_of_runsNext hrun, hexec, settleAnswer, settle_of_not_halted not_halted]
  exact ⟨t, hstep, hpc, hrunState.trans hrun.1, hmem⟩

/-- Settles O18: the jump by `step_jump`; the next step fetches from the same memory at the
target. -/
theorem jumpFetchesAtTarget : Obligations.JumpFetchesAtTarget := by
  intro s w target i hinv hrun hc hrT htarget
  have hvalue : WritesValue i s target := htarget.imp_left (And.imp_left commitsResult_iff.mpr)
  obtain ⟨t, hstep, rfl, hrunning, hmem⟩ := step_jump hinv hrun hc hrT hvalue
  rw [← hmem]
  exact ⟨t, hstep, rfl, hrunning, sameMemory_of_mem_eq hmem,
    fun hinvalid => ⟨_, step_of_invalid_pc hrunning hinvalid⟩,
    fun _ _ hread hdecode => ⟨hrunning, hread, hdecode⟩⟩

end Sys2Proof.Machine

/-! PROOFS for 60_exceptions.md. What each check of a step reports and the state it leaves, in step
order: fetch, decode, V, data access; then that neither the counter nor the record is an input. -/

namespace Sys2Proof.Machine

/-! ### The codes and the invariant -/

/-- Settles O50: R201's table. -/
theorem faultCodes : Obligations.FaultCodes := ⟨rfl, rfl, rfl, rfl, rfl⟩

/-- Settles O23: the invariant through parts 1 to 6 of the step and the run's end in FAULTED. -/
theorem faultLeavesInvariant : Obligations.FaultLeavesInvariant := fun _ _ => State.Inv.step_fault

/-! ### The illegal word -/

/-- The decode of a running core whose word is no instruction (60_exceptions.md R204). -/
theorem step_of_illegal_word {s : State} {w : Word} {e : DecodeError}
    (hrunning : s.runState = .running) (hread : s.mem.read s.pc = some w)
    (hdec : decode w = .error e) :
    step s = .fault (.illegalInstruction w (s.fail .illegalInstruction w)) := by
  rcases step_cases s with ⟨hne, -⟩ | ⟨-, hnone, -⟩ | ⟨-, w', _, hread', -, hstep⟩
    | ⟨w', i, ⟨-, hread', hdec'⟩, -⟩
  · exact absurd hrunning hne
  · cases hread.symm.trans hnone
  · obtain rfl := Option.some.inj (hread.symm.trans hread')
    exact hstep
  · obtain rfl := Option.some.inj (hread.symm.trans hread')
    cases hdec.symm.trans hdec'

/-- Settles O4: such a word decodes to an error whatever its other fields are. -/
theorem illegalWordFaults : Obligations.IllegalWordFaults := by
  intro s w hrunning hread hillegal
  obtain ⟨decodes_to_error, -⟩ := decodeReadsTheFieldBits w
  obtain ⟨e, hdec⟩ := decodes_to_error hillegal
  exact step_of_illegal_word hrunning hread hdec

/-! ### The V halt -/

section
variable {s t : State} {w : Word} {i : Instr} (hrun : runsNext s w i)
include hrun

/-- The effect of V on the state that holds the step's event, and the move to HALTED at the end of
the step (60_exceptions.md R202). -/
theorem step_overflow_effect (hv : overflowsIn i s) :
    ∃ t, step s = .next t ∧ t.flag = 8 ∧ t.halted = true ∧ t.runState = .halted
      ∧ OnlyPcAdvanced s t ∧ SameMemory s t ∧ t.steps = s.steps + 1 := by
  obtain ⟨u, hexec, ⟨hsteps, -, -⟩, hmem, hpc, hflag, hhalted⟩ :=
    exec_overflow_effect ((overflowsIn_emit i s { pc := s.pc, word := w, instr := i }).mpr hv)
  have hstep : step s = .next u.settle := by rw [step_of_runsNext hrun, hexec, settleAnswer]
  have run_halted : u.settle.runState = .halted := by rw [settle_runState, if_pos hhalted]
  have same_memory : SameMemory s u.settle := by
    rw [SameMemory, settle_mem]
    exact hmem
  exact ⟨u.settle, hstep, (settle_flag u).trans hflag, (settle_halted u).trans hhalted, run_halted,
    settle_onlyPcAdvanced hpc, same_memory, (settle_steps u).trans hsteps⟩

theorem step_next_flag_of_enabled (hstep : step s = .next t) (hen : enabledIn i s) :
    t.flag = (aluOf i s).2.bits := by
  obtain ⟨u, hexec, rfl⟩ := exec_of_step_next hrun hstep
  rw [settle_flag, exec_next_flag_of_enabled hexec ((enabledIn_emit i s _).mpr hen), aluOf_emit]

/-- The flag tells the two halts apart: V after a V halt, Z after a HALT (60_exceptions.md R202). -/
theorem step_next_flag_of_halted (hinv : s.Inv) (hstep : step s = .next t)
    (hhalted : t.halted = true) :
    (t.flag = 8 ∧ overflowsIn i s) ∨ (t.flag = 2 ∧ i.op = .halt) := by
  obtain ⟨halted_iff, -⟩ := haltedExactlyWhen
  rcases (halted_iff s t w i hinv hrun hstep).mp hhalted with ⟨hen, hop⟩ | hv
  · have flag_z : t.flag = 2 := by
      rw [step_next_flag_of_enabled hrun hstep hen, aluOf_of_halt hop, AluFlag.bits]
    exact .inr ⟨flag_z, hop⟩
  · have flag_v : t.flag = 8 :=
      (step_next_flag_of_enabled hrun hstep hv.1).trans (bits_eq_overflow.mpr hv.2)
    exact .inl ⟨flag_v, hv⟩

end

/-- Settles O12: the effect of the V halt, and the flag after either halt. -/
theorem overflowHaltsWithoutCommit : Obligations.OverflowHaltsWithoutCommit :=
  ⟨fun _ _ _ _ hrun => step_overflow_effect hrun,
    fun _ _ _ _ hinv hrun => step_next_flag_of_halted hrun hinv⟩

/-! ### The data access -/

section
variable {s : State} {w : Word} {i : Instr} (hrun : runsNext s w i)
include hrun

/-- A LOAD or STORE that would commit to an address out of range: the fault of its step and the
state after parts 1 to 6 (60_exceptions.md R203). -/
theorem step_badAccess_effect (hinv : s.Inv) (hc : commitsIn i s)
    (hinvalid : ¬ s.mem.valid (aluOf i s).1) (hop : i.op = .load ∨ i.op = .store) :
    ∃ f, step s = .fault f ∧ BadAccess i (s.emit { pc := s.pc, word := w, instr := i }) f
      ∧ LeftByBadAccess f.kind f.info (aluOf i s).2.bits s f.left ∧ f.left.halted = false
      ∧ f.left.flag ≠ 8 ∧ f.left.trace = { pc := s.pc, word := w, instr := i } :: s.trace := by
  have hc' := (commitsIn_emit i s { pc := s.pc, word := w, instr := i }).mpr hc
  obtain ⟨f, hexec, hbad⟩ := exec_badAccess_of_invalid hop hc' hinvalid
  obtain ⟨hleft, htrace⟩ := hbad.leaves hc'
  have hstep : step s = .fault f := by rw [step_of_runsNext hrun, hexec, settleAnswer]
  have not_halted : f.left.halted = false :=
    (step_fault_halted hstep).trans (hinv.not_halted hrun.1)
  have flag_not_v : f.left.flag ≠ 8 := by
    obtain ⟨-, hflag, -⟩ := hleft
    rw [hflag]
    exact mt bits_eq_overflow.mp hc.2
  exact ⟨f, hstep, hbad, hleft, not_halted, flag_not_v, htrace⟩

/-- After a legal fetch and decode, a data access out of range is the only thing that faults. -/
theorem step_next_of_no_badAccess
    (h : ¬ (commitsIn i s ∧ ¬ s.mem.valid (aluOf i s).1 ∧ (i.op = .load ∨ i.op = .store))) :
    ∃ t, step s = .next t := by
  rcases exec_next_or_fault i (s.emit { pc := s.pc, word := w, instr := i }) with
    ⟨u, hexec⟩ | ⟨f, hexec⟩
  · exact ⟨u.settle, by rw [step_of_runsNext hrun, hexec, settleAnswer]⟩
  · obtain ⟨hc, hinvalid, hop⟩ := exec_fault_cases hexec
    exact absurd ⟨hc, hinvalid, hop.imp And.left And.left⟩ h

end

/-- Settles O9: the fetch by `step_of_invalid_pc`; LOAD and STORE by the one lemma on bad accesses,
each with its own fault. -/
theorem fatalMemoryErrorsLeave : Obligations.FatalMemoryErrorsLeave := by
  refine ⟨fun s => step_of_invalid_pc, fun s w i hinv hrun hc hinvalid =>
    ⟨fun hop => ?load, fun hop => ?store⟩⟩
  case load =>
    obtain ⟨f, hstep, ⟨-, ⟨-, rfl⟩ | ⟨hop', -⟩⟩, hleaves⟩ :=
      step_badAccess_effect hrun hinv hc hinvalid (.inl hop)
    · exact ⟨_, hstep, hleaves⟩
    · cases hop.symm.trans hop'
  case store =>
    obtain ⟨f, hstep, ⟨-, ⟨hop', -⟩ | ⟨-, rfl⟩⟩, hleaves⟩ :=
      step_badAccess_effect hrun hinv hc hinvalid (.inr hop)
    · cases hop.symm.trans hop'
    · exact ⟨_, hstep, hleaves⟩

/-! ### What a step reports -/

section
variable {s : State} {w : Word} {i : Instr} (hinv : s.Inv) (hrun : runsNext s w i)
include hrun

theorem reported_of_overflow (hv : overflowsIn i s) :
    reported (step s) = some .machineFaultV := by
  obtain ⟨t, hstep, hflag, hhalted, -⟩ := step_overflow_effect hrun hv
  rw [hstep, reported, if_pos ⟨hhalted, hflag⟩]

include hinv

/-- With neither V nor a bad access the step goes on, and if it halts its flag is Z. -/
theorem reported_eq_none (hv : ¬ overflowsIn i s)
    (hbad : ¬ (commitsIn i s ∧ ¬ s.mem.valid (aluOf i s).1 ∧ (i.op = .load ∨ i.op = .store))) :
    reported (step s) = none := by
  obtain ⟨t, hstep⟩ := step_next_of_no_badAccess hrun hbad
  have not_v_halt : ¬ (t.halted = true ∧ t.flag = 8) := by
    rintro ⟨hhalted, hflag⟩
    rcases step_next_flag_of_halted hrun hinv hstep hhalted with ⟨-, hov⟩ | ⟨hz, -⟩
    · exact hv hov
    · exact absurd (hz.symm.trans hflag) (by decide)
  rw [hstep, reported, if_neg not_v_halt]

/-- HALT cannot produce V and accesses no memory. -/
theorem reported_of_halt (hop : i.op = .halt) : reported (step s) = none := by
  refine reported_eq_none hinv hrun (fun hov => ?overflow) (fun ⟨_, _, haccess⟩ => ?access)
  case overflow => exact (commitsIn_of_halt hop hov.1).2 hov.2
  case access => simp [hop] at haccess

end

/-- Settles O8: one lemma for each check, in step order. -/
theorem stepReportsTheFirstCheck : Obligations.StepReportsTheFirstCheck := by
  intro s hinv hrunning
  refine ⟨fun hinvalid => ?fetch, fun w hread => ⟨fun e hdec => ?illegal, fun i hdec => ?decoded⟩⟩
  case fetch => rw [step_of_invalid_pc hrunning hinvalid, reported, Fault.kind]
  case illegal => rw [step_of_illegal_word hrunning hread hdec, reported, Fault.kind]
  case decoded =>
    have hrun : runsNext s w i := ⟨hrunning, hread, hdec⟩
    obtain ⟨-, access_faults⟩ := fatalMemoryErrorsLeave
    refine ⟨reported_of_overflow hrun, fun hc hinvalid hop => ?load,
      fun hc hinvalid hop => ?store, reported_eq_none hinv hrun, reported_of_halt hinv hrun⟩
    case load =>
      obtain ⟨load_faults, -⟩ := access_faults s w i hinv hrun hc hinvalid
      obtain ⟨t, hstep, -⟩ := load_faults hop
      rw [hstep, reported, Fault.kind]
    case store =>
      obtain ⟨-, store_faults⟩ := access_faults s w i hinv hrun hc hinvalid
      obtain ⟨t, hstep, -⟩ := store_faults hop
      rw [hstep, reported, Fault.kind]

/-! ### The step counter and the observer's record are no input

`recount` replaces both. Every part of a step carries the replacement through to what it answers,
the pc advance counting it up by one. -/

section
variable (n : Nat) (tr : List StepEvent)

/-- The state with another step counter and another record of events. -/
def State.recount (s : State) : State := { s with steps := n, trace := tr }

/-- The fault with its state left recounted. -/
def Fault.recount : Fault → Fault
  | .fetchOutOfRange a t => .fetchOutOfRange a (t.recount n tr)
  | .illegalInstruction w t => .illegalInstruction w (t.recount n tr)
  | .loadOutOfRange a t => .loadOutOfRange a (t.recount n tr)
  | .storeOutOfRange a t => .storeOutOfRange a (t.recount n tr)

/-- The answer with its state recounted; a refusal holds none. -/
def recountAnswer : Answer → Answer
  | .next t => .next (t.recount n tr)
  | .fault f => .fault (f.recount n tr)
  | .refused r => .refused r

/-! The parts of a step -/

theorem writeReg_recount (r : RegNum) (v : Word) (s : State) :
    (s.recount n tr).writeReg r v = (s.writeReg r v).recount n tr := by
  unfold State.writeReg
  split <;> rfl

theorem settle_recount (s : State) : (s.recount n tr).settle = s.settle.recount n tr := by
  unfold State.settle State.recount
  split <;> rfl

theorem advance_recount (s : State) :
    (s.recount n tr).advance = s.advance.recount (n + 1) tr := rfl

theorem issued_recount (i : Instr) (s : State) :
    issued i (s.recount n tr) = (issued i s).recount (n + 1) tr := rfl

theorem commitLoad_recount (rT : RegNum) (a : Word) (u : State) :
    commitLoad rT a (u.recount n tr) = recountAnswer n tr (commitLoad rT a u) := by
  have same_read : (u.recount n tr).mem.read a = u.mem.read a := rfl
  unfold commitLoad
  rw [same_read]
  cases u.mem.read a with
  | none => rfl
  | some v => exact congrArg _ (writeReg_recount n tr rT v u)

theorem commitStore_recount (rT : RegNum) (a : Word) (u : State) :
    commitStore rT a (u.recount n tr) = recountAnswer n tr (commitStore rT a u) := by
  have same_write : (u.recount n tr).mem.write a ((u.recount n tr).readReg rT)
      = u.mem.write a (u.readReg rT) := rfl
  unfold commitStore
  rw [same_write]
  cases u.mem.write a (u.readReg rT) <;> rfl

theorem commitOf_recount (i : Instr) (result : Word) (u : State) :
    commitOf i result (u.recount n tr) = recountAnswer n tr (commitOf i result u) := by
  cases i with
  | halt => rfl
  | load => exact commitLoad_recount n tr _ result u
  | store => exact commitStore_recount n tr _ result u
  | add | sub | mul | div => exact congrArg _ (writeReg_recount n tr _ result u)

theorem exec_recount (i : Instr) (s : State) :
    exec i (s.recount n tr) = recountAnswer (n + 1) tr (exec i s) := by
  rcases exec_cases i s with ⟨hd, e⟩ | ⟨hv, e⟩ | ⟨hc, e⟩
  · have hd' : ¬ enabledIn i (s.recount n tr) := hd
    rw [e, exec_of_disabled hd', advance_recount, recountAnswer]
  · have hv' : overflowsIn i (s.recount n tr) := hv
    rw [e, exec_of_overflow hv', issued_recount, recountAnswer]
  · have hc' : commitsIn i (s.recount n tr) := hc
    have same_alu : aluOf i (s.recount n tr) = aluOf i s := rfl
    rw [e, exec_of_commit hc', same_alu, issued_recount, commitOf_recount]

theorem settleAnswer_recount (a : Answer) :
    settleAnswer (recountAnswer n tr a) = recountAnswer n tr (settleAnswer a) := by
  cases a with
  | next t => exact congrArg _ (settle_recount n tr t)
  | fault f => rfl
  | refused r => rfl

/-- The same step from another counter and another record: the same answer, but for its own count
and record. -/
theorem step_recount (s : State) :
    ∃ m tr', step (s.recount n tr) = recountAnswer m tr' (step s) := by
  rcases step_cases s with ⟨hne, e⟩ | ⟨hr, hnone, e⟩ | ⟨hr, w, err, hread, hdec, e⟩
    | ⟨w, i, hrun, e⟩
  · exact ⟨n, tr, by rw [e]; exact step_of_not_running (s := s.recount n tr) hne⟩
  · have hinvalid : ¬ s.mem.valid s.pc := Memory.read_eq_none.mp hnone
    exact ⟨n, tr, by rw [e]; exact step_of_invalid_pc (s := s.recount n tr) hr hinvalid⟩
  · exact ⟨n, tr, by rw [e]; exact step_of_illegal_word (s := s.recount n tr) hr hread hdec⟩
  · have hrun' : runsNext (s.recount n tr) w i := hrun
    have same_event : (s.recount n tr).emit { pc := (s.recount n tr).pc, word := w, instr := i }
        = (s.emit { pc := s.pc, word := w, instr := i }).recount n
            ({ pc := s.pc, word := w, instr := i } :: tr) := rfl
    refine ⟨n + 1, { pc := s.pc, word := w, instr := i } :: tr, ?_⟩
    rw [e, step_of_runsNext hrun', same_event, exec_recount, settleAnswer_recount]

/-! What is seen of an answer -/

theorem goesOn_recount (a : Answer) : goesOn a ↔ goesOn (recountAnswer n tr a) := by
  cases a with
  | next t => exact iff_of_true ⟨t, rfl⟩ ⟨t.recount n tr, rfl⟩
  | fault f => exact iff_of_false nofun nofun
  | refused r => exact iff_of_false nofun nofun

theorem reported_recount (a : Answer) : reported a = reported (recountAnswer n tr a) := by
  cases a with
  | next t => rfl
  | fault f => cases f <;> rfl
  | refused r => rfl

theorem Fault.left_recount (f : Fault) : (f.recount n tr).left = f.left.recount n tr := by
  cases f <;> rfl

/-- Where the answer is a refusal, the state left is the one before the step. -/
theorem stateLeft_recount (m : Nat) (tr' : List StepEvent) (s : State) (a : Answer) :
    ∃ k l, stateLeft (s.recount n tr) (recountAnswer m tr' a) = (stateLeft s a).recount k l := by
  cases a with
  | next t => exact ⟨m, tr', rfl⟩
  | fault f => exact ⟨m, tr', Fault.left_recount m tr' f⟩
  | refused r => exact ⟨n, tr, rfl⟩

end

/-- Settles O14: the replacement is a `recount`, which every part of the step carries through. -/
theorem observersAndCounterAreNoInput : Obligations.ObserversAndCounterAreNoInput := by
  intro s n tr s' t t'
  obtain ⟨m, tr', hstep⟩ : ∃ m tr', step s' = recountAnswer m tr' (step s) := step_recount n tr s
  obtain ⟨k, l, hleft⟩ : ∃ k l, t' = t.recount k l := by
    change ∃ k l, stateLeft s' (step s') = t.recount k l
    rw [hstep]
    exact stateLeft_recount n tr m tr' s (step s)
  rw [hstep, hleft]
  exact ⟨goesOn_recount m tr' _, reported_recount m tr' _, rfl, rfl, rfl, rfl, rfl⟩

end Sys2Proof.Machine

/-! PROOFS for 70_reset_and_hazards.md. What the start of a run and the loader write, so what the core
runs first; what register 15 reads as an operand and as STORE data. -/

namespace Sys2Proof.Machine

/-! ### The start of a run -/

/-- Settles O44: the frame of `startRun`, field by field. -/
theorem startRunWritesOnly : Obligations.StartRunWritesOnly := fun s a =>
  ⟨startRun_halted s a, startRun_pc s a, startRun_runState s a,
    fun r => startRun_readReg_ne s r a, startRun_flag s a, startRun_steps s a, startRun_mem s a,
    startRun_trace s a⟩

/-! ### The placed word -/

section
variable (s : State) (a w : Word)

@[simp] theorem placeWord_runState : (s.placeWord a w).runState = s.runState := by
  rcases placeWord_cases s a w with ⟨m, -, e⟩ | ⟨-, e⟩ <;> rw [e]

@[simp] theorem placeWord_pc : (s.placeWord a w).pc = s.pc := by
  rcases placeWord_cases s a w with ⟨m, -, e⟩ | ⟨-, e⟩ <;> rw [e]
  exact withMem_pc s m

@[simp] theorem placeWord_flag : (s.placeWord a w).flag = s.flag := by
  rcases placeWord_cases s a w with ⟨m, -, e⟩ | ⟨-, e⟩ <;> rw [e]

/-- Where `withFetchWord` places its word: at pc, or at 0 if pc is not a valid address
(notes/assumptions/5.md). -/
def State.loadAddress : Word := if s.mem.valid s.pc then s.pc else 0

/-- A 32-bit word is placed whole: reading its number as 32 bits gives it back. -/
theorem withFetchWord_eq :
    s.withFetchWord 32 w.toNat = (s.startRun s.loadAddress).placeWord s.loadAddress w := by
  have whole : BitVec.ofNat 32 (w.toNat % 2 ^ 32) = w := by
    rw [Nat.mod_eq_of_lt w.isLt, BitVec.ofNat_toNat, BitVec.setWidth_eq]
  simp only [State.withFetchWord, whole, State.loadAddress]

theorem withFetchWord_pc : (s.withFetchWord 32 w.toNat).pc = s.loadAddress := by
  rw [withFetchWord_eq, placeWord_pc, startRun_pc]

theorem withFetchWord_flag : (s.withFetchWord 32 w.toNat).flag = s.flag := by
  rw [withFetchWord_eq, placeWord_flag, startRun_flag]

end

theorem placeWord_read {s : State} {a : Word} (hwf : s.mem.wf) (hv : s.mem.valid a) (w : Word) :
    (s.placeWord a w).mem.read a = some w := by
  rcases placeWord_cases s a w with ⟨m, hm, e⟩ | ⟨hinvalid, -⟩
  · rw [e]
    exact Memory.read_write_same hm hwf
  · exact absurd hv hinvalid

/-- Address 0 is always valid: `MEM_SIZE` is at least 1 (00_scope.md R4). -/
theorem loadAddress_valid {s : State} (hwf : s.mem.wf) : s.mem.valid s.loadAddress := by
  obtain ⟨⟨hsize, -⟩, -⟩ := hwf
  unfold State.loadAddress
  split
  case isTrue hpc => exact hpc
  case isFalse => exact ⟨le_rfl, Int.natCast_pos.mpr hsize⟩

/-- From any state whose memory has its canonical form, the loader and the host's `run` make a
well-formed instruction the next one the core runs (70_reset_and_hazards.md R231, R233). -/
theorem withFetchWord_runsNext {s : State} {i : Instr} (hwf : s.mem.wf) (hi : i.WellFormed) :
    runsNext (s.withFetchWord 32 (encode i).toNat) (encode i) i := by
  refine ⟨?running, ?word, decode_eq_ok_iff.mpr (hasFields_encode hi)⟩
  case running => rw [withFetchWord_eq, placeWord_runState, startRun_runState]
  case word =>
    rw [withFetchWord_pc, withFetchWord_eq]
    apply placeWord_read <;> rw [startRun_mem]
    · exact hwf
    · exact loadAddress_valid hwf

theorem reset_loadAddress : State.reset.loadAddress = 0 := by
  rw [State.loadAddress, State.pc, reset_readReg, ite_self]

/-- Settles O52: reset is one of the states of `withFetchWord_runsNext`, and its pc is 0. -/
theorem placedWordRunsFirst : Obligations.PlacedWordRunsFirst := fun _ hi =>
  ⟨withFetchWord_runsNext reset_mem_wf hi, (withFetchWord_pc _ _).trans reset_loadAddress,
    withFetchWord_flag _ _⟩

/-! ### Register 15 as an operand and as STORE data -/

/-- An ADD whose exact sum is pc copies the instruction's own address, since the operands are read
before the pc advance (41_cpu_step.md R138). -/
theorem exec_add_copies_pc {rT rS1 rS2 : RegNum} {s : State}
    (hsum : (s.readReg rS1).toInt + ((s.readReg rS2).toInt + 0) = s.pc.toInt)
    (hzero : rT ≠ 0) (hpc : rT ≠ 15) :
    ∃ t, exec (.add 15 rT rS1 rS2 0) s = .next t ∧ t.readReg rT = s.pc ∧ t.pc = s.pc + 1 := by
  obtain ⟨t, hexec, ⟨hwritten, -, hadvanced, -⟩, -⟩ :=
    exec_add_of_fits (rT := rT) (enabled_always s.flag) hsum (not_overflows_toInt s.pc)
  exact ⟨t, hexec, (hwritten hzero).trans (wrapW_toInt s.pc), hadvanced hpc⟩

/-- A STORE of register 15 writes the address after its own, since the data is read after the pc
advance (43_memory_ops.md R181). -/
theorem exec_store_of_pc {off : Int} {s : State} (hfits : ¬ overflows off) (hlow : 0 ≤ off)
    (hhigh : off < s.mem.size) :
    ∃ t, exec (.store 15 15 0 0 off) s = .next t
      ∧ s.mem.write (wrapW off) (s.pc + 1) = some t.mem ∧ t.pc = s.pc + 1 := by
  have hsum : (s.readReg 0).toInt + ((s.readReg 0).toInt + off) = off := by
    rw [readReg_zero_toInt, zero_add, zero_add]
  have hraw : aluOf (.store 15 15 0 0 off) s = derive off :=
    (alu_of_sum _ _ (.inr (.inr rfl))).trans (congrArg derive hsum)
  obtain ⟨t, hexec, hwrite, hpc, -⟩ :=
    exec_store_of_valid rfl (commitsIn_of_derive hraw (enabled_always s.flag) hfits)
      ((aluOf_valid_iff hraw hfits).mpr ⟨hlow, hhigh⟩)
  rw [hraw, derive_result] at hwrite
  exact ⟨t, hexec, hwrite, hpc⟩

/-- Settles O41: with register 0 as the other source the sum of the ADD is pc; the memory of the
STORE reads back the word written. -/
theorem programCounterReadsTwoWays : Obligations.ProgramCounterReadsTwoWays := by
  refine fun s rT off hzero hpc => ⟨exec_add_copies_pc ?first hzero hpc,
    exec_add_copies_pc ?second hzero hpc, fun hwf hoff hlow hhigh => ?store⟩
  case first => rw [readReg_zero_toInt, add_zero, add_zero, State.pc]
  case second => rw [readReg_zero_toInt, zero_add, add_zero, State.pc]
  case store =>
    obtain ⟨t, hexec, hwrite, hadvanced⟩ := exec_store_of_pc (by omega) hlow hhigh
    exact ⟨t, hexec, Memory.read_write_same hwrite hwf, hadvanced⟩

end Sys2Proof.Machine
